-- ==== Sys2Proof/Config.lean ====
section
/-! DEFINITION. What an implementation fixes (00_scope.md R9): the parameters of an instance, that is its sizes and the
three OPEN modes of 92_eei_decisions.md D8 to D10, with their values for this hardware; and the one value the spec leaves
unstated. -/

namespace Sys2Proof

/-- `ADD_V_MODE` (00_scope.md R9, 92_eei_decisions.md D8): what ADD writes to Overflow. -/
inductive AddVMode
  | zero
  | signed
deriving DecidableEq, Repr

/-- `SUB_BORROW_MODE` (00_scope.md R9, 92_eei_decisions.md D9): how SUB forms its borrow. -/
inductive SubBorrowMode
  | literal
  | compare
deriving DecidableEq, Repr

/-- `DIV_ACC_WIDTH` (00_scope.md R9, 92_eei_decisions.md D10): N bits (`narrow`) or N + 1 bits (`wide`). -/
inductive DivAccWidth
  | narrow
  | wide
deriving DecidableEq, Repr

/-- The parameters a model takes as arguments (00_scope.md R9; 92_eei_decisions.md, "Parameters a model takes as
arguments"). All other sizes follow from them. -/
structure Params where
  /-- `N`: the bit width of every ALU operand, result and accumulator half (D2). -/
  n             : Nat
  /-- `ADD_V_MODE` (D8). -/
  addVMode      : AddVMode
  /-- `SUB_BORROW_MODE` (D9). -/
  subBorrowMode : SubBorrowMode
  /-- `DIV_ACC_WIDTH` (D10). -/
  divAccWidth   : DivAccWidth
  /-- `LMAX`: the largest postfix program, in tokens (D18). -/
  lmax          : Nat
  /-- `SD`: the depth of the evaluator's value stack (D18). -/
  sd            : Nat
  /-- `TT_MAX_VARS`: the most variables a truth table may have (D28). -/
  ttMaxVars     : Nat
deriving DecidableEq, Repr

/-- The legal values of the parameters (00_scope.md R9): N ≥ 1, LMAX ≥ 1, SD ≥ LMAX, 1 ≤ TT_MAX_VARS ≤ 32. -/
def Params.legal (p : Params) : Bool :=
  decide (1 ≤ p.n) && decide (1 ≤ p.lmax) && decide (p.lmax ≤ p.sd) &&
    decide (1 ≤ p.ttMaxVars) && decide (p.ttMaxVars ≤ 32)

/-- The values 00_scope.md R9 gives this hardware. -/
def Params.hardware : Params :=
  { n := 8, addVMode := .zero, subBorrowMode := .literal, divAccWidth := .narrow, lmax := 64, sd := 64, ttMaxVars := 8 }

/-- `NV`: the number of variable slots, fixed by the token format (00_scope.md R9, 92_eei_decisions.md D17). -/
abbrev Config.NV : Nat := 32

/-- FREE VALUE (log 13). 60_exceptions.md R294 gives every assembler refusal the info "position" and does not say which
position of the input it is. It is left free: a function of the refusal's code and of the input (the expression, or the keys
of an assignment). -/
opaque Config.asmPosition : BitVec 8 → List (List Char) → Nat

end Sys2Proof
end

