-- ==== Sys2Proof/Word.lean ====
section
/-! DEFINITION. The vectors of BLS-CORE (00_scope.md R9 to R11): a bit is a `Bool`, a vector of width n is a `BitVec n`
whose bit 0 is the least significant, and a vector whose width follows from the instance's parameters carries its width. -/

namespace Sys2Proof

/-- A vector together with its width (00_scope.md R11). -/
structure Vec where
  width : Nat
  bits  : BitVec width
deriving DecidableEq, Repr

/-- An ALU operand: N bits in an instance of width N (00_scope.md R9, R11; log 2). -/
abbrev Operand := Vec

/-- The ALU instruction word IW: W = 2N + 7 bits (00_scope.md R10, 30_encoding.md R80). -/
abbrev InstrWord := Vec

/-- The width W of the instruction word (00_scope.md R10). -/
def wordWidth (n : Nat) : Nat := 2 * n + 7

/-- A postfix token (30_encoding.md R90). -/
abbrev Token := BitVec 8

end Sys2Proof
end

