-- ==== Sys2Proof/Syntax.lean ====
section
/-! DEFINITION. The instructions: one constructor per row of spec/opcode_table.json, the ALU words first (30_encoding.md
R80 to R88), then the postfix tokens (R90 to R92). The ignored bits of a word (R81, R82) are no part of the instruction. -/

namespace Sys2Proof

/-- An instruction of BLS-CORE. An ALU instruction carries the operands its word supplies: a binary opcode's `b` is
`none` when VB = 0 (30_encoding.md R82), a unary opcode has no operand B at all. Operands carry their width, so that one
syntax serves every N (00_scope.md R9). -/
inductive Instr
  /-- OP 0, 41_arithmetic.md R140. -/
  | aluAdd (a : Operand) (b : Option Operand)
  /-- OP 1, 41_arithmetic.md R141. -/
  | aluSub (a : Operand) (b : Option Operand)
  /-- OP 2, 41_arithmetic.md R142. -/
  | aluMul (a : Operand) (b : Option Operand)
  /-- OP 3, 41_arithmetic.md R143. -/
  | aluDiv (a : Operand) (b : Option Operand)
  /-- OP 4, 42_logic.md R170. -/
  | aluAnd (a : Operand) (b : Option Operand)
  /-- OP 5, 42_logic.md R171. -/
  | aluOr (a : Operand) (b : Option Operand)
  /-- OP 6, 42_logic.md R172. -/
  | aluXor (a : Operand) (b : Option Operand)
  /-- OP 7, 42_logic.md R173. -/
  | aluNot (a : Operand)
  /-- OP 8, 43_shift_rotate.md R180. -/
  | aluShl (a : Operand)
  /-- OP 9, 43_shift_rotate.md R181. -/
  | aluShr (a : Operand)
  /-- OP 10, 43_shift_rotate.md R182. -/
  | aluRol (a : Operand)
  /-- OP 11, 43_shift_rotate.md R183. -/
  | aluRor (a : Operand)
  /-- OP 12, unassigned (30_encoding.md R87, 44_alu_dispatch_flags.md R195). -/
  | aluUnassigned12
  /-- OP 13, unassigned. -/
  | aluUnassigned13
  /-- OP 14, unassigned. -/
  | aluUnassigned14
  /-- OP 15, unassigned. -/
  | aluUnassigned15
  /-- A word with VOP = 0 or VA = 0 (30_encoding.md R81, 60_exceptions.md R291); the two bits as the word has them. -/
  | aluInvalid (vop va : Bool)
  /-- Token `000kkkkk`, 46_postfix_machine.md R253. -/
  | tokVar (k : BitVec 5)
  /-- Token 0x20, 46_postfix_machine.md R255. -/
  | tokAnd
  /-- Token 0x40, 46_postfix_machine.md R255. -/
  | tokOr
  /-- Token 0x60, 46_postfix_machine.md R255. -/
  | tokXor
  /-- Token 0x80, 46_postfix_machine.md R254. -/
  | tokNot
  /-- Any token outside the map of 30_encoding.md R91 (46_postfix_machine.md R256). -/
  | tokReserved (t : Token)
deriving DecidableEq, Repr

/-- Which unit executes the instruction (00_scope.md R2): `true` for the ALU unit, `false` for the evaluator unit. -/
def Instr.isAlu : Instr → Bool
  | .aluAdd _ _ | .aluSub _ _ | .aluMul _ _ | .aluDiv _ _ | .aluAnd _ _ | .aluOr _ _ | .aluXor _ _ => true
  | .aluNot _ | .aluShl _ | .aluShr _ | .aluRol _ | .aluRor _ => true
  | .aluUnassigned12 | .aluUnassigned13 | .aluUnassigned14 | .aluUnassigned15 | .aluInvalid _ _ => true
  | .tokVar _ | .tokAnd | .tokOr | .tokXor | .tokNot | .tokReserved _ => false

end Sys2Proof
end

