-- ==== Sys2Proof/WellFormed.lean ====
section
/-! DEFINITION. Which terms of `Instr` stand for an encoding in an instance of width N. Three kinds of terms are encoded by
no word or token: an operand of another width, an "invalid" instruction that supplies everything, and a "reserved" token
that the token map lists. -/

namespace Sys2Proof

/-- The token is in the token map of 30_encoding.md R91. -/
def tokenListed (t : Token) : Bool :=
  t.toNat < 0x20 || t == 0x20#8 || t == 0x40#8 || t == 0x60#8 || t == 0x80#8

/-- The operand fills a field of `n` bits (30_encoding.md R80). -/
def Vec.hasWidth (n : Nat) (v : Vec) : Bool := v.width == n

/-- The operands of a binary opcode, if supplied, fill their fields (30_encoding.md R80, R82). -/
def binaryOperandsFit (n : Nat) (a : Operand) (b : Option Operand) : Bool := a.hasWidth n && b.all (Vec.hasWidth n)

/-- The instruction has an encoding in an instance of width `n` (30_encoding.md R80, R81, R91). -/
def Instr.wf (n : Nat) : Instr → Bool
  | .aluAdd a b | .aluSub a b | .aluMul a b | .aluDiv a b | .aluAnd a b | .aluOr a b | .aluXor a b =>
    binaryOperandsFit n a b
  | .aluNot a | .aluShl a | .aluShr a | .aluRol a | .aluRor a => a.hasWidth n
  | .aluUnassigned12 | .aluUnassigned13 | .aluUnassigned14 | .aluUnassigned15 => true
  | .aluInvalid vop va => !(vop && va)
  | .tokVar _ | .tokAnd | .tokOr | .tokXor | .tokNot => true
  | .tokReserved t => !tokenListed t

end Sys2Proof
end

