-- ==== Sys2Proof/Decode.lean ====
section
/-! DEFINITION. The decoder and the encoder of both instruction formats: the ALU instruction word (30_encoding.md R80
to R88) and the postfix token (R90 to R92). Both decoders are total (R86, R88, R256). -/

namespace Sys2Proof

/-! ### Fields of the instruction word, for any operand width `n` (30_encoding.md R80) -/

/-- `VOP = IW[2N+6]`. -/
def vopField (n : Nat) {k : Nat} (w : BitVec k) : Bool := w.getLsbD (2 * n + 6)

/-- `VA = IW[2N+5]`. -/
def vaField (n : Nat) {k : Nat} (w : BitVec k) : Bool := w.getLsbD (2 * n + 5)

/-- `VB = IW[2N+4]`. -/
def vbField (n : Nat) {k : Nat} (w : BitVec k) : Bool := w.getLsbD (2 * n + 4)

/-- `OP = IW[2N+3:2N]`. -/
def opField (n : Nat) {k : Nat} (w : BitVec k) : BitVec 4 := w.extractLsb' (2 * n) 4

/-- `A = IW[2N-1:N]`. -/
def aField (n : Nat) {k : Nat} (w : BitVec k) : BitVec n := w.extractLsb' n n

/-- `B = IW[N-1:0]`. -/
def bField (n : Nat) {k : Nat} (w : BitVec k) : BitVec n := w.extractLsb' 0 n

/-! ### Decoding -/

/-- The opcode map (30_encoding.md R84, R87), for a word that supplies an opcode and operand A; `b` is operand B if VB
= 1. Unary and unassigned opcodes ignore it (R82). -/
def decodeOp (op : BitVec 4) (a : Operand) (b : Option Operand) : Instr :=
  match op.toNat with
  | 0  => .aluAdd a b
  | 1  => .aluSub a b
  | 2  => .aluMul a b
  | 3  => .aluDiv a b
  | 4  => .aluAnd a b
  | 5  => .aluOr a b
  | 6  => .aluXor a b
  | 7  => .aluNot a
  | 8  => .aluShl a
  | 9  => .aluShr a
  | 10 => .aluRol a
  | 11 => .aluRor a
  | 12 => .aluUnassigned12
  | 13 => .aluUnassigned13
  | 14 => .aluUnassigned14
  | _  => .aluUnassigned15

/-- The decoder of ALU instruction words in an instance of width `n` (30_encoding.md R86). A binary opcode with VB = 0
decodes to its instruction with no operand B, whose meaning raises OperandBMissing. -/
def decodeWord (n : Nat) {k : Nat} (w : BitVec k) : Instr :=
  if vopField n w && vaField n w then
    decodeOp (opField n w) ⟨n, aField n w⟩ (if vbField n w then some ⟨n, bField n w⟩ else none)
  else
    .aluInvalid (vopField n w) (vaField n w)

/-- `KIND = t[7:5]` (30_encoding.md R90). -/
def kindField (t : Token) : BitVec 3 := t.extractLsb' 5 3

/-- `IDX = t[4:0]` (30_encoding.md R90). -/
def idxField (t : Token) : BitVec 5 := t.extractLsb' 0 5

/-- An operator token is the operator only with IDX = 0 (30_encoding.md R90, R91). -/
def decodeOperator (t : Token) (i : Instr) : Instr :=
  if idxField t = 0#5 then i else .tokReserved t

/-- The decoder of postfix tokens (30_encoding.md R91, R92). -/
def decodeToken (t : Token) : Instr :=
  match (kindField t).toNat with
  | 0 => .tokVar (idxField t)
  | 1 => decodeOperator t .tokAnd
  | 2 => decodeOperator t .tokOr
  | 3 => decodeOperator t .tokXor
  | 4 => decodeOperator t .tokNot
  | _ => .tokReserved t

/-- One encoded instruction: a word on the ALU unit's IW port or a token of an evaluator program. -/
inductive Code
  | word (w : InstrWord)
  | token (t : Token)
deriving DecidableEq, Repr

/-- Decoding either format. -/
def decode (n : Nat) : Code → Instr
  | .word w  => decodeWord n w.bits
  | .token t => decodeToken t

/-- Why a pattern of bits is no instruction of either format. -/
inductive DecodeError
  /-- Neither the length of a token nor the length of an instruction word. -/
  | badLength
  /-- A bit above the last bit of the format is set. -/
  | bitsAboveFormat
deriving DecidableEq, Repr

/-- A number of bits in whole bytes. -/
def wholeBytes (k : Nat) : Nat := 8 * ((k + 7) / 8)

/-- Decoding a pattern of `nbits` bits in an instance of width `n`: 8 bits are a token, W = 2N + 7 bits (or as many in whole
bytes) an instruction word. BLS-CORE has no other length (30_encoding.md R89, R90) and no byte order (20_memory.md R65);
log 17. -/
def decodeBits (n nbits w : Nat) : Except DecodeError Instr :=
  if nbits = 8 then
    if w < 2 ^ 8 then .ok (decodeToken (BitVec.ofNat 8 w)) else .error .bitsAboveFormat
  else if nbits = wordWidth n ∨ nbits = wholeBytes (wordWidth n) then
    if w < 2 ^ wordWidth n then .ok (decodeWord n (BitVec.ofNat (wordWidth n) w)) else .error .bitsAboveFormat
  else .error .badLength

/-- The instruction the decoder reads from a row's bits, numbered as spec/opcode_table.json numbers them: the table is that
of this hardware, N = 8 (00_scope.md R9). -/
def decodeTableWord (nbits w : Nat) : Option Instr := (decodeBits Params.hardware.n nbits w).toOption

/-! ### Encoding -/

/-- An operand in a field of `n` bits: as it is when it has `n` bits; another width is normalised as the host does before a
vector enters a field, with high zeros or by truncation (30_encoding.md R97; log 2). -/
def Vec.fit (n : Nat) (v : Vec) : BitVec n := v.bits.setWidth n

/-- The instruction word of 30_encoding.md R80, field by field. -/
def packWord (n : Nat) (vop va vb : Bool) (op : BitVec 4) (a b : BitVec n) : InstrWord :=
  ⟨wordWidth n, (BitVec.ofBool vop ++ BitVec.ofBool va ++ BitVec.ofBool vb ++ op ++ a ++ b).cast
    (by unfold wordWidth; omega)⟩

/-- A binary opcode's word: VB says whether operand B is supplied (30_encoding.md R93). -/
def packBinary (n : Nat) (op : BitVec 4) (a : Operand) (b : Option Operand) : InstrWord :=
  packWord n true true b.isSome op (a.fit n) ((b.map (Vec.fit n)).getD 0#n)

/-- A unary opcode's word, with the ignored bits 0 (30_encoding.md R93). -/
def packUnary (n : Nat) (op : BitVec 4) (a : Operand) : InstrWord := packWord n true true false op (a.fit n) 0#n

/-- An unassigned opcode's word, with the ignored bits 0 (30_encoding.md R87). -/
def packUnassigned (n : Nat) (op : BitVec 4) : InstrWord := packWord n true true false op 0#n 0#n

/-- The postfix token of 30_encoding.md R90, field by field. -/
def packToken (kind : BitVec 3) (idx : BitVec 5) : Token := kind ++ idx

/-- The encoder for an instance of width `n`: the word or token of a well-formed instruction, its ignored bits 0
(30_encoding.md R84, R91). -/
def encode (n : Nat) : Instr → Code
  | .aluAdd a b      => .word (packBinary n 0#4 a b)
  | .aluSub a b      => .word (packBinary n 1#4 a b)
  | .aluMul a b      => .word (packBinary n 2#4 a b)
  | .aluDiv a b      => .word (packBinary n 3#4 a b)
  | .aluAnd a b      => .word (packBinary n 4#4 a b)
  | .aluOr a b       => .word (packBinary n 5#4 a b)
  | .aluXor a b      => .word (packBinary n 6#4 a b)
  | .aluNot a        => .word (packUnary n 7#4 a)
  | .aluShl a        => .word (packUnary n 8#4 a)
  | .aluShr a        => .word (packUnary n 9#4 a)
  | .aluRol a        => .word (packUnary n 10#4 a)
  | .aluRor a        => .word (packUnary n 11#4 a)
  | .aluUnassigned12 => .word (packUnassigned n 12#4)
  | .aluUnassigned13 => .word (packUnassigned n 13#4)
  | .aluUnassigned14 => .word (packUnassigned n 14#4)
  | .aluUnassigned15 => .word (packUnassigned n 15#4)
  | .aluInvalid vop va => .word (packWord n vop va false 0#4 0#n 0#n)
  | .tokVar k        => .token (packToken 0#3 k)
  | .tokAnd          => .token (packToken 1#3 0#5)
  | .tokOr           => .token (packToken 2#3 0#5)
  | .tokXor          => .token (packToken 3#3 0#5)
  | .tokNot          => .token (packToken 4#3 0#5)
  | .tokReserved t   => .token t

end Sys2Proof
end

