-- ==== Sys2Proof/Machine/State.lean ====
section
/-! DEFINITION. The state of one BLS-CORE instance (10_state.md): the ALU unit's latches, the evaluator unit's latches,
the state of an evaluator command in progress, what the host presents next, and the instance's parameters; the state after
reset (10_state.md R45, 70_reset_and_hazards.md R320); and why a step can stop. -/

namespace Sys2Proof.Machine

/-- FLAGS, the flag register: five independent bits (10_state.md R33, R34). -/
structure Flags where
  z : Bool   -- Zero, bit 0
  c : Bool   -- Carry, bit 1
  v : Bool   -- Overflow, bit 2
  s : Bool   -- Sign, bit 3
  p : Bool   -- Parity, bit 4
deriving DecidableEq, Repr

/-- EVT, the soft-event latch (10_state.md R36). Its code 3 is never written, so it has no name here. -/
inductive Event
  | none
  | unknownOpcode
  | divByZero
deriving DecidableEq, Repr

/-- A fault of the ALU unit with its info (60_exceptions.md R291, R292, R294). -/
inductive AluFault
  /-- INVALID_INSTRUCTION; the info is the missing-field mask: bit 0 = opcode missing, bit 1 = operand A missing. -/
  | invalidInstruction (mask : BitVec 2)
  /-- OPERAND_B_MISSING; the info is the OP value. -/
  | operandBMissing (op : BitVec 4)
deriving DecidableEq, Repr

/-- A fault of the evaluator unit with its info (60_exceptions.md R294). -/
inductive EvFault
  /-- EV_BAD_COMMAND; the info is CMD. -/
  | badCommand (cmd : BitVec 2)
  /-- EV_PROG_TOO_LONG; the info is PLEN. -/
  | progTooLong (plen : Nat)
  /-- EV_BAD_TOKEN; the info is TP. -/
  | badToken (tp : Nat)
  /-- EV_STACK_UNDERFLOW; the info is TP. -/
  | stackUnderflow (tp : Nat)
  /-- EV_STACK_OVERFLOW; the info is TP. -/
  | stackOverflow (tp : Nat)
  /-- EV_FINAL_DEPTH; the info is SP. -/
  | finalDepth (sp : Nat)
  /-- EV_NO_VARIABLES; no info. -/
  | noVariables
  /-- EV_TT_TOO_LARGE; the info is the variable count. -/
  | ttTooLarge (n : Nat)
deriving DecidableEq, Repr

/-- A record of the ALU trace (60_exceptions.md R305): the named values; the description text is not modelled (log 20). -/
inductive AluRecord
  /-- One bit of a ripple-carry add. -/
  | addBit (i : Nat) (a b carryIn sum carryOut : Bool)
  /-- One iteration of MUL: the multiplier bit, and `acc` and `wa` after the iteration. -/
  | mulIteration (i : Nat) (bBit : Bool) (acc wa : Vec)
  /-- One iteration of DIV: `Acc` and `Q` after the shift, the trial difference `Ap`, and whether it was committed. -/
  | divIteration (i : Nat) (acc q ap : Vec) (committed : Bool)
  /-- The last record of DIV. -/
  | divResult (quotient remainder : Vec)
  /-- The one record of a DIV by zero. -/
  | divByZero
  /-- One bit of AND, OR, XOR or NOT: the gate's inputs and its output (log 8); a unary gate has no second input. -/
  | gateBit (i : Nat) (a : Bool) (b : Option Bool) (result : Bool)
  /-- A shift or rotate. -/
  | shift (input : Vec) (dropped : Bool) (result : Vec)
  /-- An unassigned opcode. -/
  | unknownOpcode (op : BitVec 4)
deriving DecidableEq, Repr

/-- The binary operators of the evaluator (46_postfix_machine.md R255). -/
inductive BinOp
  | and
  | or
  | xor
deriving DecidableEq, Repr

/-- A record of the STEP trace (46_postfix_machine.md R262). A stack is listed bottom first. -/
inductive StepRecord
  | load (tp slot : Nat) (value : Bool) (stack : List Bool)
  | apply (tp : Nat) (op : BinOp) (left right result : Bool) (stack : List Bool)
  | applyNot (tp : Nat) (operand result : Bool) (stack : List Bool)
  | final (output : Bool)
deriving DecidableEq, Repr

/-- Which evaluator command is in progress (46_postfix_machine.md R250). A truth table also holds NVAR, ROW and the rows
recorded so far, 2^TT_MAX_VARS of them (10_state.md R40, 46_postfix_machine.md R259). -/
inductive PassKind
  | eval
  | step
  | table (nvar row : Nat) (rows : Vec)
deriving DecidableEq, Repr

/-- The command-local state of the evaluator unit (10_state.md R40). L is the length of `tm`; the stack holds its live
slots only, the top first, and SP is its length (R42; log 6). -/
structure Run where
  kind : PassKind
  tm   : List Token
  tp   : Nat
  stk  : List Bool
  asg  : BitVec Config.NV
deriving DecidableEq, Repr

/-- What the host drives on the evaluator's input ports (10_state.md R30). PLEN is the number driven; its port has the width
that LMAX gives it (log 25). -/
structure EvRequest where
  cmd   : BitVec 2
  prog  : List Token
  plen  : Nat
  asgin : BitVec Config.NV
  nvin  : BitVec 6
deriving DecidableEq, Repr

/-- One move of the host (60_exceptions.md R304). -/
inductive HostAction
  /-- An ALU instruction: IW, of the instance's W bits, and TE. -/
  | alu (iw : InstrWord) (te : Bool)
  /-- An evaluator command. -/
  | ev (req : EvRequest)
  /-- A reset request (70_reset_and_hazards.md R320). -/
  | reset
  /-- The host presents nothing for one step (log 3). -/
  | wait
deriving DecidableEq, Repr

/-- The state of one instance. -/
structure State where
  /-- RES, N bits (10_state.md R35). -/
  res    : Vec
  /-- FLAGS (10_state.md R33). -/
  flags  : Flags
  /-- EVT (10_state.md R36). -/
  evt    : Event
  /-- FAULT with its info (60_exceptions.md R290, R294); `none` is code 0 (log 7). -/
  fault  : Option AluFault
  /-- TE as presented with the current ALU command (10_state.md R30; log 5). -/
  te     : Bool
  /-- TRACE, the ALU trace buffer (10_state.md R38). -/
  trace  : List AluRecord
  /-- OUT (10_state.md R41). -/
  out    : Bool
  /-- TTOUT, 2^TT_MAX_VARS bits, row `r` at bit `r` (10_state.md R30, R41). -/
  ttout  : Vec
  /-- EFAULT with its info (10_state.md R41, 60_exceptions.md R290, R294); `none` is code 0 (log 7). -/
  efault : Option EvFault
  /-- ETRACE (10_state.md R41, 46_postfix_machine.md R262). -/
  etrace : List StepRecord
  /-- The evaluator command in progress; outside a command this state does not exist (10_state.md R40, R45). -/
  run    : Option Run
  /-- The MODEL's own: what the host presents next, in issue order (log 3, log 4). -/
  host   : List HostAction
  /-- The MODEL's own: the instance's fixed parameters (00_scope.md R9; log 1). -/
  params : Params
deriving DecidableEq, Repr

/-- Why the machine stops. Every fault of the spec is a next state (60_exceptions.md R290), so only one stop is left. -/
inductive Fault
  /-- Raised by the meaning of a token where no evaluator command runs: the token buffer, the pointer and the stack it
  would act on do not exist there (10_state.md R40, R45). Safe: no step does this (log 12). -/
  | tokenOutsidePass
deriving DecidableEq, Repr

/-- What the model gives no meaning. -/
inductive Refusal
  /-- An instruction without a meaning yet. Safe. No arm of `exec` uses it. -/
  | notModelled (mnemonic : String)
  /-- Raised by the start of an evaluator command whose PROG holds fewer tokens than PLEN says, a host that breaks its
  contract: the model gives such a host no move (70_reset_and_hazards.md R325). Safe (log 11). -/
  | programNotSupplied
deriving DecidableEq, Repr

/-- All flags 0. -/
def Flags.zero : Flags := { z := false, c := false, v := false, s := false, p := false }

/-- What the reset event leaves (10_state.md R45, 70_reset_and_hazards.md R320) in an instance with these parameters and
this host: every latch at its reset value, no evaluator command. -/
def State.afterReset (te : Bool) (host : List HostAction) (params : Params) : State :=
  { res := ⟨params.n, 0#params.n⟩, flags := Flags.zero, evt := .none, fault := none, te := te, trace := [],
    out := false, ttout := ⟨2 ^ params.ttMaxVars, 0#(2 ^ params.ttMaxVars)⟩, efault := none, etrace := [], run := none, host := host, params := params }

/-- The machine right after reset, as this hardware's parameters have it (00_scope.md R9); the host presents nothing. -/
def State.reset : State := State.afterReset false [] Params.hardware

end Sys2Proof.Machine
end

