-- ==== Sys2Proof/Machine/Gates.lean ====
section
/-! DEFINITION. The gate library (00_scope.md R13), the circuits (40_gates_circuits.md R112 to R114), and the two loop
shapes the pseudocode builds vectors with. -/

namespace Sys2Proof.Machine

/-! ### Gates (00_scope.md R13) -/

def gateNot (a : Bool) : Bool := !a
def gateAnd (a b : Bool) : Bool := a && b
def gateOr (a b : Bool) : Bool := a || b

/-- XOR is built from the other three gates (00_scope.md R13). -/
def gateXor (a b : Bool) : Bool := gateOr (gateAnd a (gateNot b)) (gateAnd (gateNot a) b)
def gateNand (a b : Bool) : Bool := gateNot (gateAnd a b)
def gateNor (a b : Bool) : Bool := gateNot (gateOr a b)
def gateXnor (a b : Bool) : Bool := gateNot (gateXor a b)

/-! ### Circuits -/

/-- (sum, carry) (40_gates_circuits.md R112). -/
def halfAdder (a b : Bool) : Bool × Bool := (gateXor a b, gateAnd a b)

/-- (sum, carry out) (40_gates_circuits.md R113). -/
def fullAdder (a b cin : Bool) : Bool × Bool :=
  ((halfAdder (halfAdder a b).1 cin).1, gateOr (halfAdder a b).2 (halfAdder (halfAdder a b).1 cin).2)

/-- The 2-to-1 multiplexer (40_gates_circuits.md R114); no instruction depends on it. -/
def mux (sel d0 d1 : Bool) : Bool := gateOr (gateAnd (gateNot sel) d0) (gateAnd sel d1)

/-! ### Loops over bit positions -/

/-- The vector of width `n` whose bit `i` is `f i`: `for i in 0..n-1: v[i] = f(i)`. -/
def tabulate (f : Nat → Bool) : (n : Nat) → BitVec n
  | 0     => 0#0
  | n + 1 => BitVec.cons (f n) (tabulate f n)

/-- The value a gate chain holds after positions `0..n-1`: `x = init; for i in 0..n-1: x = g(x, i)`. -/
def chain (g : Bool → Nat → Bool) (init : Bool) : Nat → Bool
  | 0     => init
  | n + 1 => g (chain g init n) n

end Sys2Proof.Machine
end

