-- ==== Sys2Proof/Machine/Flags.lean ====
section
/-! DEFINITION. The flag computation (44_alu_dispatch_flags.md R196 to R201) and the flag register's port view
(10_state.md R33). -/

namespace Sys2Proof.Machine

/-- Zero: the chain of AND of NOT of each bit (R197). -/
def zeroFlag {n : Nat} (r : BitVec n) : Bool :=
  chain (fun z i => gateAnd z (gateNot (r.getLsbD i))) true n

/-- Sign: the top bit (R199). -/
def signFlag {n : Nat} (r : BitVec n) : Bool := r.getLsbD (n - 1)

/-- Parity: the XOR chain of all bits, odd parity (R200). -/
def parityFlag {n : Nat} (r : BitVec n) : Bool :=
  chain (fun p i => gateXor p (r.getLsbD i)) false n

/-- `flags(result, cflag, vflag)` (R196 to R200): a function of its three arguments only. -/
def flagsOf {n : Nat} (r : BitVec n) (c v : Bool) : Flags :=
  { z := zeroFlag r, c := c, v := v, s := signFlag r, p := parityFlag r }

/-- The 5-bit FLAGS port: bit 0 Z, 1 C, 2 V, 3 S, 4 P (10_state.md R33). -/
def flagsWord (f : Flags) : BitVec 5 :=
  BitVec.ofBool f.p ++ BitVec.ofBool f.s ++ BitVec.ofBool f.v ++ BitVec.ofBool f.c ++ BitVec.ofBool f.z

/-- The host's snapshot: the flags by name (R201). -/
def flagsSnapshot (f : Flags) : List (String × Bool) :=
  [("Zero", f.z), ("Carry", f.c), ("Overflow", f.v), ("Sign", f.s), ("Parity", f.p)]

end Sys2Proof.Machine
end

