-- ==== Sys2Proof/Machine/Ops.lean ====
section
/-! DEFINITION. The shared operations on the state: committing an ALU instruction (44_alu_dispatch_flags.md R193), taking
a fault in either unit (60_exceptions.md R290, R296, R299), the fault and event codes (R294), the value stack
(46_postfix_machine.md R253 to R255, R258), completing an evaluator command, and the reset event
(70_reset_and_hazards.md R320). -/

namespace Sys2Proof.Machine

/-! ### Codes -/

/-- The EVT port (10_state.md R36). -/
def eventCode (e : Event) : BitVec 2 :=
  match e with
  | .none          => 0#2
  | .unknownOpcode => 1#2
  | .divByZero     => 2#2

/-- The code of an ALU fault (60_exceptions.md R294). -/
def aluFaultCode (f : AluFault) : BitVec 8 :=
  match f with
  | .invalidInstruction _ => 0x01#8
  | .operandBMissing _    => 0x02#8

/-- The info of an ALU fault (60_exceptions.md R291, R292). -/
def aluFaultInfo (f : AluFault) : Nat :=
  match f with
  | .invalidInstruction mask => mask.toNat
  | .operandBMissing op      => op.toNat

/-- The code of an evaluator fault (60_exceptions.md R294). -/
def evFaultCode (f : EvFault) : BitVec 8 :=
  match f with
  | .badCommand _     => 0x10#8
  | .progTooLong _    => 0x11#8
  | .badToken _       => 0x12#8
  | .stackUnderflow _ => 0x13#8
  | .stackOverflow _  => 0x14#8
  | .finalDepth _     => 0x15#8
  | .noVariables      => 0x16#8
  | .ttTooLarge _     => 0x17#8

/-- The info of an evaluator fault; EV_NO_VARIABLES has none (60_exceptions.md R294). -/
def evFaultInfo (f : EvFault) : Option Nat :=
  match f with
  | .badCommand cmd     => some cmd.toNat
  | .progTooLong plen   => some plen
  | .badToken tp        => some tp
  | .stackUnderflow tp  => some tp
  | .stackOverflow tp   => some tp
  | .finalDepth sp      => some sp
  | .noVariables        => none
  | .ttTooLarge n       => some n

/-- The FAULT port (10_state.md R30): 0 when the last command completed. -/
def faultPort (s : State) : BitVec 8 := (s.fault.map aluFaultCode).getD 0x00#8

/-- The EFAULT port (10_state.md R30, R41): 0 when the last evaluator command completed. -/
def efaultPort (s : State) : BitVec 8 := (s.efault.map evFaultCode).getD 0x00#8

/-! ### The ALU unit -/

/-- What a path of the dispatch table hands to the commit (44_alu_dispatch_flags.md R192). -/
structure PathOut (n : Nat) where
  result : BitVec n
  cflag  : Bool
  vflag  : Bool
  event  : Event
deriving DecidableEq, Repr

/-- The commit of a completed ALU instruction (44_alu_dispatch_flags.md R193): RES, FLAGS, EVT and FAULT change together;
a traced command's records replace the buffer, an untraced command leaves it (10_state.md R38). -/
def aluCommit {n : Nat} (o : PathOut n) (records : List AluRecord) (s : State) : State :=
  { s with
    res := ⟨n, o.result⟩
    flags := flagsOf o.result o.cflag o.vflag
    evt := o.event
    fault := none
    trace := if s.te then records else s.trace }

/-- TAKING A FAULT in the ALU unit (60_exceptions.md R290, R296): only FAULT, with its info, is written. -/
def aluRaise (f : AluFault) (s : State) : State := { s with fault := some f }

/-! ### The evaluator unit -/

/-- TAKING A FAULT in the evaluator unit (60_exceptions.md R290, R296): EFAULT, with its info, is written and the
command ends; OUT and TTOUT stay, and a STEP keeps the records it has (46_postfix_machine.md R262). -/
def evRaise (f : EvFault) (s : State) : State := { s with efault := some f, run := none }

/-- A push (46_postfix_machine.md R253, R258): overflow when the stack of depth `sd` is full. -/
def pushValue (sd tp : Nat) (v : Bool) (stk : List Bool) : Except EvFault (List Bool) :=
  if sd ≤ stk.length then .error (.stackOverflow tp) else .ok (v :: stk)

/-- The gate of a binary operator (46_postfix_machine.md R255). -/
def binGate (op : BinOp) (l r : Bool) : Bool :=
  match op with
  | .and => gateAnd l r
  | .or  => gateOr l r
  | .xor => gateXor l r

/-- The two operands of a binary operator, (left, right), and what lies below them: the first popped is the right one
(46_postfix_machine.md R255). -/
def popTwo (tp : Nat) (stk : List Bool) : Except EvFault (Bool × Bool × List Bool) :=
  match stk with
  | r :: l :: rest => .ok (l, r, rest)
  | _              => .error (.stackUnderflow tp)

/-- The operand of NOT and what lies below it (46_postfix_machine.md R254). -/
def popOne (tp : Nat) (stk : List Bool) : Except EvFault (Bool × List Bool) :=
  match stk with
  | v :: rest => .ok (v, rest)
  | _         => .error (.stackUnderflow tp)

/-- The token is executed: the new stack is stored, TP advances by one (46_postfix_machine.md R252), and a STEP appends
the token's record (R262). -/
def tokenDone (r : Run) (stk : List Bool) (record : StepRecord) (s : State) : State :=
  { s with
    run := some { r with stk := stk, tp := r.tp + 1 }
    etrace := if r.kind = .step then s.etrace ++ [record] else s.etrace }

/-- The meaning of a token over the command in progress; outside a command there is nothing to act on (log 12). -/
def inPass (s : State) (k : Run → State) : Host.Outcome State Fault Refusal :=
  match s.run with
  | some r => .next (k r)
  | none   => .fault .tokenOutsidePass

/-- An EVAL or STEP completes (46_postfix_machine.md R257): OUT is written, EFAULT is 0, and the command's state is gone
(10_state.md R40). -/
def completeEval (result : Bool) (s : State) : State :=
  { s with out := result, efault := none, run := none }

/-- A TT completes (46_postfix_machine.md R259): TTOUT is written, EFAULT is 0, and the command's state is gone. -/
def completeTable (rows : Vec) (s : State) : State :=
  { s with ttout := rows, efault := none, run := none }

/-! ### Reset -/

/-- The reset event (70_reset_and_hazards.md R320): every latch at its value in 10_state.md R45. The instance keeps its
parameters (00_scope.md R9), and what the host drives is the host's. -/
def resetEvent (s : State) : State := State.afterReset s.te s.host s.params

end Sys2Proof.Machine
end

