-- ==== Sys2Proof/Machine/Operands.lean ====
section
/-! DEFINITION. Operand forms of the ALU instructions (30_encoding.md R82, R83). Operand A is always supplied where a
meaning runs; the forms differ in operand B. -/

namespace Sys2Proof.Machine

/-- What an operand is in the instance: an N-bit vector. The decoder yields nothing else (30_encoding.md R83); a term of
another width is read as the field it would be put into (R97; log 2). -/
def operandOf (s : State) (v : Operand) : BitVec s.params.n := v.fit s.params.n

/-- A binary opcode (30_encoding.md R82, 60_exceptions.md R292): with operand B the instruction runs; without it the
instruction takes OPERAND_B_MISSING, whose info is the OP value. -/
def withOperandB (op : BitVec 4) (b : Option Operand) (s : State) (k : BitVec s.params.n → State) :
    Host.Outcome State Fault Refusal :=
  match b with
  | some b => .next (k (operandOf s b))
  | none   => .next (aluRaise (.operandBMissing op) s)

/-- The missing-field mask of InvalidInstruction (60_exceptions.md R291): bit 0 = VOP is 0, bit 1 = VA is 0. -/
def missingMask (vop va : Bool) : BitVec 2 := BitVec.ofBool (gateNot va) ++ BitVec.ofBool (gateNot vop)

end Sys2Proof.Machine
end

