-- ==== Sys2Proof/Machine/Engine.lean ====
section
/-! DEFINITION. The arithmetic engine (41_arithmetic.md R130 to R134), for operands of any width, as the spec's loops
write it. -/

namespace Sys2Proof.Machine

/-- `sign(x) = x[m-1]` (00_scope.md R12). -/
def sign {m : Nat} (x : BitVec m) : Bool := x.getLsbD (m - 1)

/-! ### add (R130) -/

/-- The ripple-carry adder after `k` stages: the sum bits so far and the carry into stage `k`. -/
def rippleAdd {m : Nat} (a b : BitVec m) : (k : Nat) → BitVec k × Bool
  | 0     => (0#0, false)
  | k + 1 =>
    let stage := fullAdder (a.getLsbD k) (b.getLsbD k) (rippleAdd a b k).2
    (BitVec.cons stage.1 (rippleAdd a b k).1, stage.2)

/-- `add_m`: (sum, carry out) (R130). -/
def engineAdd {m : Nat} (a b : BitVec m) : BitVec m × Bool := rippleAdd a b m

/-! ### negate (R131) and subtract (R132) -/

/-- NOT of each bit. -/
def complement {m : Nat} (a : BitVec m) : BitVec m := tabulate (fun i => gateNot (a.getLsbD i)) m

/-- `one_m` (00_scope.md R11). -/
def oneVec (m : Nat) : BitVec m := tabulate (fun i => i == 0) m

/-- `negate_m` (R131). -/
def engineNegate {m : Nat} (a : BitVec m) : BitVec m := (engineAdd (complement a) (oneVec m)).1

/-- The outputs of `subtract_m`. -/
structure Difference (m : Nat) where
  diff     : BitVec m
  borrow   : Bool
  overflow : Bool
deriving DecidableEq, Repr

/-- The borrow of `subtract_m`, by SUB_BORROW_MODE (R132). -/
def borrowOf {m : Nat} (mode : SubBorrowMode) (a b : BitVec m) (carryOut : Bool) : Bool :=
  match mode with
  | .literal => gateNot carryOut
  | .compare => decide (a.toNat < b.toNat)

/-- `subtract_m` (R132). -/
def engineSubtract {m : Nat} (mode : SubBorrowMode) (a b : BitVec m) : Difference m :=
  let s := engineAdd a (engineNegate b)
  { diff     := s.1
    borrow   := borrowOf mode a b s.2
    overflow := gateAnd (gateXor (sign a) (sign b)) (gateXnor (sign s.1) (sign b)) }

/-! ### multiply (R133) -/

/-- The left shift by one with a bit fed in at the bottom and the top bit dropped (R133, R134 `shl_in`). -/
def shlIn {m : Nat} (x : BitVec m) (low : Bool) : BitVec m :=
  tabulate (fun i => if i = 0 then low else x.getLsbD (i - 1)) m

/-- `(acc, wa)` after `k` iterations of the multiplier (R133). -/
def multiplyLoop {n : Nat} (a b : BitVec n) : Nat → BitVec (2 * n) × BitVec (2 * n)
  | 0     => (0#(2 * n), a.setWidth (2 * n))
  | k + 1 =>
    let st := multiplyLoop a b k
    (if b.getLsbD k then (engineAdd st.1 st.2).1 else st.1, shlIn st.2 false)

/-- `multiply`: the 2N-bit product (R133). -/
def engineMultiply {n : Nat} (a b : BitVec n) : BitVec (2 * n) := (multiplyLoop a b n).1

/-! ### divide (R134) -/

/-- The width `M` of the divider's partial-remainder register, by DIV_ACC_WIDTH, for operands of width `n` (R134). -/
def accWidth (p : Params) (n : Nat) : Nat :=
  match p.divAccWidth with
  | .narrow => n
  | .wide   => n + 1

/-- The registers of the divider. -/
structure DivRegs (m n : Nat) where
  acc : BitVec m
  q   : BitVec n
deriving DecidableEq, Repr

/-- The pair (A, Q) shifted left by one: A receives the bit leaving Q (R134). -/
def divShift {m n : Nat} (r : DivRegs m n) : DivRegs m n :=
  { acc := shlIn r.acc (sign r.q), q := shlIn r.q false }

/-- The trial difference `Ap`, its borrow and overflow ignored (R134). -/
def divTrial {m n : Nat} (b : BitVec n) (shifted : DivRegs m n) : BitVec m :=
  (engineSubtract .literal shifted.acc (b.setWidth m)).diff

/-- One iteration: shift, trial subtraction, restore or commit; `Q[0]` is the committed bit (R134). -/
def divIterate {m n : Nat} (b : BitVec n) (r : DivRegs m n) : DivRegs m n :=
  let shifted := divShift r
  let ap := divTrial b shifted
  if sign ap then shifted
  else { acc := ap, q := shlIn r.q true }

/-- The divider's registers after `k` iterations, for an accumulator of `m` bits (R134). -/
def divideLoop {n : Nat} (m : Nat) (a b : BitVec n) : Nat → DivRegs m n
  | 0     => { acc := 0#m, q := a }
  | k + 1 => divIterate b (divideLoop m a b k)

/-- The outputs of `divide`. -/
structure Quotient (n : Nat) where
  quotient  : BitVec n
  remainder : BitVec n
  dz        : Bool
deriving DecidableEq, Repr

/-- `divide` with an accumulator of `m` bits (R134); a zero divisor never enters the loop (R144). -/
def engineDivide {n : Nat} (m : Nat) (a b : BitVec n) : Quotient n :=
  if b = 0#n then { quotient := 0#n, remainder := 0#n, dz := true }
  else { quotient := (divideLoop m a b n).q, remainder := (divideLoop m a b n).acc.setWidth n, dz := false }

end Sys2Proof.Machine
end

