-- ==== Sys2Proof/Machine/Trace.lean ====
section
/-! DEFINITION. The records a traced ALU instruction appends (60_exceptions.md R305): exactly the minimum content the rule
fixes, in the order the micro-steps happen (log 8). -/

namespace Sys2Proof.Machine

/-- One record per bit of a ripple-carry add. -/
def addRecords {m : Nat} (a b : BitVec m) : List AluRecord :=
  (List.range m).map fun i =>
    .addBit i (a.getLsbD i) (b.getLsbD i) (rippleAdd a b i).2
      (fullAdder (a.getLsbD i) (b.getLsbD i) (rippleAdd a b i).2).1
      (fullAdder (a.getLsbD i) (b.getLsbD i) (rippleAdd a b i).2).2

/-- SUB: the add inside negate, then the add of the subtraction. -/
def subRecords {m : Nat} (a b : BitVec m) : List AluRecord :=
  addRecords (complement b) (oneVec m) ++ addRecords a (engineNegate b)

/-- MUL: one record per iteration, with `acc` and `wa` after it. -/
def mulRecords {n : Nat} (a b : BitVec n) : List AluRecord :=
  (List.range n).map fun i =>
    .mulIteration i (b.getLsbD i) ⟨2 * n, (multiplyLoop a b (i + 1)).1⟩ ⟨2 * n, (multiplyLoop a b (i + 1)).2⟩

/-- One iteration of DIV, from the registers before it. -/
def divRecord {m n : Nat} (b : BitVec n) (i : Nat) (r : DivRegs m n) : AluRecord :=
  .divIteration i ⟨m, (divShift r).acc⟩ ⟨n, (divShift r).q⟩ ⟨m, divTrial b (divShift r)⟩
    (gateNot (sign (divTrial b (divShift r))))

/-- DIV: one record per iteration, then the quotient and the remainder; by zero, one marker record only. -/
def divRecords {n : Nat} (m : Nat) (a b : BitVec n) : List AluRecord :=
  if b = 0#n then [.divByZero]
  else (List.range n).map (fun i => divRecord b i (divideLoop m a b i)) ++
    [.divResult ⟨n, (engineDivide m a b).quotient⟩ ⟨n, (engineDivide m a b).remainder⟩]

/-- AND, OR, XOR: one record per bit. That it holds the gate's two inputs and its output is the model's choice (log 8). -/
def gateRecords {n : Nat} (g : Bool → Bool → Bool) (a b : BitVec n) : List AluRecord :=
  (List.range n).map fun i =>
    .gateBit i (a.getLsbD i) (some (b.getLsbD i)) (g (a.getLsbD i) (b.getLsbD i))

/-- NOT: one record per bit. That it holds the gate's input and output is the model's choice (log 8). -/
def notRecords {n : Nat} (a : BitVec n) : List AluRecord :=
  (List.range n).map fun i => .gateBit i (a.getLsbD i) none (gateNot (a.getLsbD i))

/-- Shifts and rotates: one record. -/
def shiftRecords {n : Nat} (a : BitVec n) (dropped : Bool) (result : BitVec n) : List AluRecord :=
  [.shift ⟨n, a⟩ dropped ⟨n, result⟩]

/-- Unassigned opcodes: one record naming the OP value (44_alu_dispatch_flags.md R195). -/
def unknownRecords (op : BitVec 4) : List AluRecord := [.unknownOpcode op]

end Sys2Proof.Machine
end

