-- ==== Sys2Proof/Machine/Arithmetic.lean ====
section
/-! DEFINITION. ADD, SUB, MUL, DIV: the paths of the dispatch table (44_alu_dispatch_flags.md R192), for any width, and
the meanings of the four instructions (41_arithmetic.md R140 to R145). -/

namespace Sys2Proof.Machine

/-- What ADD writes to Overflow, by ADD_V_MODE (R140). -/
def addOverflow {n : Nat} (mode : AddVMode) (a b sum : BitVec n) : Bool :=
  match mode with
  | .zero   => false
  | .signed => gateAnd (gateXnor (sign a) (sign b)) (gateXor (sign a) (sign sum))

/-- R140. -/
def addPath {n : Nat} (p : Params) (a b : BitVec n) : PathOut n :=
  let s := engineAdd a b
  { result := s.1, cflag := s.2, vflag := addOverflow p.addVMode a b s.1, event := .none }

/-- R141. -/
def subPath {n : Nat} (p : Params) (a b : BitVec n) : PathOut n :=
  let d := engineSubtract p.subBorrowMode a b
  { result := d.diff, cflag := d.borrow, vflag := d.overflow, event := .none }

/-- Some bit of the high half of a product is 1 (R142). -/
def highHalfSet {n : Nat} (p : BitVec (2 * n)) : Bool :=
  chain (fun v i => gateOr v (p.getLsbD (n + i))) false n

/-- R142. -/
def mulPath {n : Nat} (a b : BitVec n) : PathOut n :=
  let p := engineMultiply a b
  { result := p.setWidth n, cflag := false, vflag := highHalfSet p, event := .none }

/-- R143, R144. -/
def divPath {n : Nat} (p : Params) (a b : BitVec n) : PathOut n :=
  let d := engineDivide (accWidth p n) a b
  { result := d.quotient, cflag := false, vflag := false, event := if d.dz then .divByZero else .none }

/-- ADD (R140). -/
def execAluAdd (a : Operand) (b : Option Operand) (s : State) : Host.Outcome State Fault Refusal :=
  withOperandB 0#4 b s fun b =>
    aluCommit (addPath s.params (operandOf s a) b) (addRecords (operandOf s a) b) s

/-- SUB (R141). -/
def execAluSub (a : Operand) (b : Option Operand) (s : State) : Host.Outcome State Fault Refusal :=
  withOperandB 1#4 b s fun b =>
    aluCommit (subPath s.params (operandOf s a) b) (subRecords (operandOf s a) b) s

/-- MUL (R142). -/
def execAluMul (a : Operand) (b : Option Operand) (s : State) : Host.Outcome State Fault Refusal :=
  withOperandB 2#4 b s fun b =>
    aluCommit (mulPath (operandOf s a) b) (mulRecords (operandOf s a) b) s

/-- DIV (R143, R144). -/
def execAluDiv (a : Operand) (b : Option Operand) (s : State) : Host.Outcome State Fault Refusal :=
  withOperandB 3#4 b s fun b =>
    aluCommit (divPath s.params (operandOf s a) b)
      (divRecords (accWidth s.params s.params.n) (operandOf s a) b) s

end Sys2Proof.Machine
end

