-- ==== Sys2Proof/Machine/Logic.lean ====
section
/-! DEFINITION. AND, OR, XOR, NOT (42_logic.md R170 to R173): one gate per bit position; no Carry or Overflow source. -/

namespace Sys2Proof.Machine

/-- A binary gate at every bit position (R170 to R172). -/
def gatePath {n : Nat} (g : Bool → Bool → Bool) (a b : BitVec n) : PathOut n :=
  { result := tabulate (fun i => g (a.getLsbD i) (b.getLsbD i)) n, cflag := false, vflag := false, event := .none }

/-- R173. -/
def notPath {n : Nat} (a : BitVec n) : PathOut n :=
  { result := tabulate (fun i => gateNot (a.getLsbD i)) n, cflag := false, vflag := false, event := .none }

/-- AND (R170). -/
def execAluAnd (a : Operand) (b : Option Operand) (s : State) : Host.Outcome State Fault Refusal :=
  withOperandB 4#4 b s fun b =>
    aluCommit (gatePath gateAnd (operandOf s a) b) (gateRecords gateAnd (operandOf s a) b) s

/-- OR (R171). -/
def execAluOr (a : Operand) (b : Option Operand) (s : State) : Host.Outcome State Fault Refusal :=
  withOperandB 5#4 b s fun b =>
    aluCommit (gatePath gateOr (operandOf s a) b) (gateRecords gateOr (operandOf s a) b) s

/-- XOR (R172). -/
def execAluXor (a : Operand) (b : Option Operand) (s : State) : Host.Outcome State Fault Refusal :=
  withOperandB 6#4 b s fun b =>
    aluCommit (gatePath gateXor (operandOf s a) b) (gateRecords gateXor (operandOf s a) b) s

/-- NOT (R173). -/
def execAluNot (a : Operand) (s : State) : Host.Outcome State Fault Refusal :=
  .next (aluCommit (notPath (operandOf s a)) (notRecords (operandOf s a)) s)

end Sys2Proof.Machine
end

