-- ==== Sys2Proof/Machine/NoOpcode.lean ====
section
/-! DEFINITION. The words that name no operation: the unassigned OP values, which complete softly
(44_alu_dispatch_flags.md R195, 30_encoding.md R87), and the invalid word, which faults (60_exceptions.md R291). -/

namespace Sys2Proof.Machine

/-- R195: a zero result, no carry or overflow source, the event UNKNOWN_OPCODE. -/
def unknownPath (n : Nat) : PathOut n :=
  { result := 0#n, cflag := false, vflag := false, event := .unknownOpcode }

/-- The soft-fail of an unassigned opcode; its trace record names the OP value (R195). -/
def unknownCommit (op : BitVec 4) (s : State) : State := aluCommit (unknownPath s.params.n) (unknownRecords op) s

/-- OP 12 (R195). -/
def execAluUnassigned12 (s : State) : Host.Outcome State Fault Refusal := .next (unknownCommit 12#4 s)

/-- OP 13 (R195). -/
def execAluUnassigned13 (s : State) : Host.Outcome State Fault Refusal := .next (unknownCommit 13#4 s)

/-- OP 14 (R195). -/
def execAluUnassigned14 (s : State) : Host.Outcome State Fault Refusal := .next (unknownCommit 14#4 s)

/-- OP 15 (R195). -/
def execAluUnassigned15 (s : State) : Host.Outcome State Fault Refusal := .next (unknownCommit 15#4 s)

/-- The invalid word takes INVALID_INSTRUCTION before the ALU is invoked (R190, R291). -/
def execAluInvalid (vop va : Bool) (s : State) : Host.Outcome State Fault Refusal :=
  .next (aluRaise (.invalidInstruction (missingMask vop va)) s)

end Sys2Proof.Machine
end

