-- ==== Sys2Proof/Machine/Shift.lean ====
section
/-! DEFINITION. SHL, SHR, ROL, ROR (43_shift_rotate.md R180 to R184): one position per instruction; Carry is the bit that
left, Overflow has no source. -/

namespace Sys2Proof.Machine

/-- Every bit up one position, `fill` at the bottom (R180, R182). -/
def shiftUp {n : Nat} (a : BitVec n) (fill : Bool) : BitVec n :=
  tabulate (fun i => if i = 0 then fill else a.getLsbD (i - 1)) n

/-- Every bit down one position, `fill` at the top (R181, R183). -/
def shiftDown {n : Nat} (a : BitVec n) (fill : Bool) : BitVec n :=
  tabulate (fun i => if i = n - 1 then fill else a.getLsbD (i + 1)) n

/-- The outputs of a shift whose dropped bit is `d` (44_alu_dispatch_flags.md R192). -/
def shiftOut {n : Nat} (result : BitVec n) (d : Bool) : PathOut n :=
  { result := result, cflag := d, vflag := false, event := .none }

/-- R180. -/
def shlPath {n : Nat} (a : BitVec n) : PathOut n := shiftOut (shiftUp a false) (a.getLsbD (n - 1))

/-- R181. -/
def shrPath {n : Nat} (a : BitVec n) : PathOut n := shiftOut (shiftDown a false) (a.getLsbD 0)

/-- R182. -/
def rolPath {n : Nat} (a : BitVec n) : PathOut n := shiftOut (shiftUp a (a.getLsbD (n - 1))) (a.getLsbD (n - 1))

/-- R183. -/
def rorPath {n : Nat} (a : BitVec n) : PathOut n := shiftOut (shiftDown a (a.getLsbD 0)) (a.getLsbD 0)

/-- A shift or rotate commits its path with its one trace record (60_exceptions.md R305). -/
def shiftCommit {n : Nat} (a : BitVec n) (o : PathOut n) (s : State) : State :=
  aluCommit o (shiftRecords a o.cflag o.result) s

/-- SHL (R180). -/
def execAluShl (a : Operand) (s : State) : Host.Outcome State Fault Refusal :=
  .next (shiftCommit (operandOf s a) (shlPath (operandOf s a)) s)

/-- SHR (R181). -/
def execAluShr (a : Operand) (s : State) : Host.Outcome State Fault Refusal :=
  .next (shiftCommit (operandOf s a) (shrPath (operandOf s a)) s)

/-- ROL (R182). -/
def execAluRol (a : Operand) (s : State) : Host.Outcome State Fault Refusal :=
  .next (shiftCommit (operandOf s a) (rolPath (operandOf s a)) s)

/-- ROR (R183). -/
def execAluRor (a : Operand) (s : State) : Host.Outcome State Fault Refusal :=
  .next (shiftCommit (operandOf s a) (rorPath (operandOf s a)) s)

end Sys2Proof.Machine
end

