-- ==== Sys2Proof/Machine/Tokens.lean ====
section
/-! DEFINITION. The postfix tokens (46_postfix_machine.md R253 to R256): what each does to the value stack, as a function
the truth-table and the big-step reading share, and their meanings over the command in progress. -/

namespace Sys2Proof.Machine

/-- The value of variable slot `k` (R253). -/
def slotValue (asg : BitVec Config.NV) (k : BitVec 5) : Bool := asg.getLsbD k.toNat

/-- A snapshot of STK for a record: slots 0 to SP-1, bottom first (R262). -/
def snapshot (stk : List Bool) : List Bool := stk.reverse

/-- What a token makes of a stack of depth `sd`, with the record a STEP appends for it (R253, R262). -/
def varEffect (sd : Nat) (r : Run) (k : BitVec 5) : Except EvFault (List Bool × StepRecord) :=
  match pushValue sd r.tp (slotValue r.asg k) r.stk with
  | .ok stk  => .ok (stk, .load r.tp k.toNat (slotValue r.asg k) (snapshot stk))
  | .error f => .error f

/-- R254, R262. -/
def notEffect (r : Run) : Except EvFault (List Bool × StepRecord) :=
  match popOne r.tp r.stk with
  | .ok (v, rest) =>
    .ok (gateNot v :: rest, .applyNot r.tp v (gateNot v) (snapshot (gateNot v :: rest)))
  | .error f => .error f

/-- R255, R262. -/
def binEffect (op : BinOp) (r : Run) : Except EvFault (List Bool × StepRecord) :=
  match popTwo r.tp r.stk with
  | .ok (left, right, rest) =>
    .ok (binGate op left right :: rest,
      .apply r.tp op left right (binGate op left right) (snapshot (binGate op left right :: rest)))
  | .error f => .error f

/-- A token's effect on the command in progress: it is done, or it faults (R252, 60_exceptions.md R290). -/
def runToken (s : State) (r : Run) (effect : Except EvFault (List Bool × StepRecord)) : State :=
  match effect with
  | .ok (stk, record) => tokenDone r stk record s
  | .error f       => evRaise f s

/-- VAR k (R253). -/
def execTokVar (k : BitVec 5) (s : State) : Host.Outcome State Fault Refusal :=
  inPass s fun r => runToken s r (varEffect s.params.sd r k)

/-- AND (R255). -/
def execTokAnd (s : State) : Host.Outcome State Fault Refusal :=
  inPass s fun r => runToken s r (binEffect .and r)

/-- OR (R255). -/
def execTokOr (s : State) : Host.Outcome State Fault Refusal :=
  inPass s fun r => runToken s r (binEffect .or r)

/-- XOR (R255). -/
def execTokXor (s : State) : Host.Outcome State Fault Refusal :=
  inPass s fun r => runToken s r (binEffect .xor r)

/-- NOT (R254). -/
def execTokNot (s : State) : Host.Outcome State Fault Refusal :=
  inPass s fun r => runToken s r (notEffect r)

/-- A reserved token takes EV_BAD_TOKEN (R256). -/
def execTokReserved (_t : Token) (s : State) : Host.Outcome State Fault Refusal :=
  inPass s fun r => runToken s r (.error (.badToken r.tp))

end Sys2Proof.Machine
end

