-- ==== Sys2Proof/Machine/Dispatch.lean ====
section
/-! DEFINITION. One arm per instruction, each one direct call of its meaning. -/

namespace Sys2Proof.Machine

def exec (i : Instr) (s : State) : Host.Outcome State Fault Refusal :=
  match i with
  | .aluAdd a b => Sys2Proof.Machine.execAluAdd a b s
  | .aluSub a b => Sys2Proof.Machine.execAluSub a b s
  | .aluMul a b => Sys2Proof.Machine.execAluMul a b s
  | .aluDiv a b => Sys2Proof.Machine.execAluDiv a b s
  | .aluAnd a b => Sys2Proof.Machine.execAluAnd a b s
  | .aluOr a b => Sys2Proof.Machine.execAluOr a b s
  | .aluXor a b => Sys2Proof.Machine.execAluXor a b s
  | .aluNot a => Sys2Proof.Machine.execAluNot a s
  | .aluShl a => Sys2Proof.Machine.execAluShl a s
  | .aluShr a => Sys2Proof.Machine.execAluShr a s
  | .aluRol a => Sys2Proof.Machine.execAluRol a s
  | .aluRor a => Sys2Proof.Machine.execAluRor a s
  | .aluUnassigned12 => Sys2Proof.Machine.execAluUnassigned12 s
  | .aluUnassigned13 => Sys2Proof.Machine.execAluUnassigned13 s
  | .aluUnassigned14 => Sys2Proof.Machine.execAluUnassigned14 s
  | .aluUnassigned15 => Sys2Proof.Machine.execAluUnassigned15 s
  | .aluInvalid vop va => Sys2Proof.Machine.execAluInvalid vop va s
  | .tokVar k => Sys2Proof.Machine.execTokVar k s
  | .tokAnd => Sys2Proof.Machine.execTokAnd s
  | .tokOr => Sys2Proof.Machine.execTokOr s
  | .tokXor => Sys2Proof.Machine.execTokXor s
  | .tokNot => Sys2Proof.Machine.execTokNot s
  | .tokReserved t => Sys2Proof.Machine.execTokReserved t s

end Sys2Proof.Machine
end

