-- ==== Sys2Proof/Machine/Evaluator.lean ====
section
/-! DEFINITION. The evaluator's commands EVAL, STEP and TT (46_postfix_machine.md R250 to R263): their start, the finish of
a pass, one step of the command in progress; and the value of a program as one function (R252 to R257, R259), which the host
side uses to tabulate an expression. -/

namespace Sys2Proof.Machine

/-! ### Starting a command -/

/-- The variable slots of truth-table row `row` for `n` variables: slot `j < n` holds bit `n-1-j` of the row index, the
others 0 (R259, R260). -/
def rowAssignment (n row : Nat) : BitVec Config.NV :=
  tabulate (fun j => decide (j < n) && row.testBit (n - 1 - j)) Config.NV

/-- A pass begins: TP = 0, SP = 0 (R251, R259). -/
def freshRun (kind : PassKind) (tm : List Token) (asg : BitVec Config.NV) : Run :=
  { kind := kind, tm := tm, tp := 0, stk := [], asg := asg }

/-- The width of the PLEN port: the least number of bits that hold 0 to LMAX, ⌈log2(LMAX + 1)⌉ (10_state.md R30). -/
def plenWidth (lmax : Nat) : Nat := Nat.log2 lmax + 1

/-- PLEN as the port shows it to the unit (10_state.md R30; log 25). -/
def plenPort (p : Params) (req : EvRequest) : Nat := req.plen % 2 ^ plenWidth p.lmax

/-- The program check and the copy of PROG into TM (R251, R259). A host that presents fewer tokens than PLEN has no move
(70_reset_and_hazards.md R325; log 11). -/
def loadProgram (req : EvRequest) (s : State) (k : List Token → State) : Host.Outcome State Fault Refusal :=
  if s.params.lmax < plenPort s.params req then .next (evRaise (.progTooLong (plenPort s.params req)) s)
  else if req.prog.length < plenPort s.params req then .refused .programNotSupplied
  else .next (k (req.prog.take (plenPort s.params req)))

/-- EVAL begins (R251). -/
def startEval (req : EvRequest) (s : State) : Host.Outcome State Fault Refusal :=
  loadProgram req s fun tm => { s with run := some (freshRun .eval tm req.asgin) }

/-- STEP begins: as EVAL, and ETRACE is emptied (R251). -/
def startStep (req : EvRequest) (s : State) : Host.Outcome State Fault Refusal :=
  loadProgram req s fun tm => { s with run := some (freshRun .step tm req.asgin), etrace := [] }

/-- `0^(2^TT_MAX_VARS)`: a truth table with no row recorded (R259). -/
def blankRows (p : Params) : Vec := ⟨2 ^ p.ttMaxVars, 0#(2 ^ p.ttMaxVars)⟩

/-- TT begins, its checks in the order of R259: no variables, too many, program too long; then row 0. -/
def startTable (req : EvRequest) (s : State) : Host.Outcome State Fault Refusal :=
  if req.nvin.toNat = 0 then .next (evRaise .noVariables s)
  else if s.params.ttMaxVars < req.nvin.toNat then .next (evRaise (.ttTooLarge req.nvin.toNat) s)
  else loadProgram req s fun tm =>
    { s with run := some (freshRun (.table req.nvin.toNat 0 (blankRows s.params)) tm (rowAssignment req.nvin.toNat 0)) }

/-- The command CMD selects (R250); 3 is reserved. -/
def evStart (req : EvRequest) (s : State) : Host.Outcome State Fault Refusal :=
  match req.cmd.toNat with
  | 0 => startEval req s
  | 1 => startStep req s
  | 2 => startTable req s
  | _ => .next (evRaise (.badCommand req.cmd) s)

/-! ### Finishing a pass (R257) -/

/-- `rows[ROW] = result` (R259). -/
def recordRow (rows : Vec) (row : Nat) (result : Bool) : Vec :=
  ⟨rows.width, tabulate (fun i => if i = row then result else rows.bits.getLsbD i) rows.width⟩

/-- A row of a truth table is finished: the last row completes the command, another begins the next (R259). -/
def finishRow (r : Run) (nvar row : Nat) (rows : Vec) (result : Bool) (s : State) : State :=
  if row + 1 < 2 ^ nvar then
    { s with run := some (freshRun (.table nvar (row + 1) (recordRow rows row result)) r.tm (rowAssignment nvar (row + 1))) }
  else completeTable (recordRow rows row result) s

/-- What the result of a pass is for (R257, R259, R262). -/
def finishPass (r : Run) (result : Bool) (s : State) : State :=
  match r.kind with
  | .eval                => completeEval result s
  | .step                => completeEval result { s with etrace := s.etrace ++ [.final result] }
  | .table nvar row rows => finishRow r nvar row rows result s

/-- `finish()`: exactly one value must be left (R257). -/
def evFinish (r : Run) (s : State) : State :=
  match r.stk with
  | [result] => finishPass r result s
  | stk      => evRaise (.finalDepth stk.length) s

/-- One step of the command in progress: the token at TP, or the finish when TP = L (R252). -/
def evAdvance (r : Run) (s : State) : Host.Outcome State Fault Refusal :=
  match r.tm[r.tp]? with
  | some t => exec (decodeToken t) s
  | none   => .next (evFinish r s)

/-! ### The value of a program -/

/-- The stack of depth `sd` after one token, or the fault it raises (R253 to R256). -/
def tokenStack (sd : Nat) (t : Token) (r : Run) : Except EvFault (List Bool) :=
  match decodeToken t with
  | .tokVar k => (varEffect sd r k).map Prod.fst
  | .tokAnd   => (binEffect .and r).map Prod.fst
  | .tokOr    => (binEffect .or r).map Prod.fst
  | .tokXor   => (binEffect .xor r).map Prod.fst
  | .tokNot   => (notEffect r).map Prod.fst
  | _         => .error (.badToken r.tp)

/-- `pass()` from the given stack and token pointer (R252). -/
def passStack (sd : Nat) (asg : BitVec Config.NV) (prog : List Token) (tp : Nat) (stk : List Bool) : Except EvFault (List Bool) :=
  match prog with
  | []        => .ok stk
  | t :: rest =>
    match tokenStack sd t { kind := .eval, tm := [], tp := tp, stk := stk, asg := asg } with
    | .ok stk'  => passStack sd asg rest (tp + 1) stk'
    | .error f  => .error f

/-- The result of a whole pass on a stack of depth `sd`, or its fault (R252, R257). -/
def passValue (sd : Nat) (asg : BitVec Config.NV) (prog : List Token) : Except EvFault Bool :=
  match passStack sd asg prog 0 [] with
  | .ok [result] => .ok result
  | .ok stk      => .error (.finalDepth stk.length)
  | .error f     => .error f

/-- The rows of a truth table, row 0 first (R259). -/
def tableRows (sd n : Nat) (prog : List Token) : Except EvFault (List Bool) :=
  (List.range (2 ^ n)).mapM fun row => passValue sd (rowAssignment n row) prog

end Sys2Proof.Machine
end

