-- ==== Sys2Proof/Machine/Agents.lean ====
section
/-! DEFINITION. The agents' moves (10_state.md R30; log 3): the host's next entry, taken by the unit it is for, and one step
of the evaluator command in progress; and how an instruction is placed where the next step takes it (log 4). -/

namespace Sys2Proof.Machine

/-- The evaluator's move when the host gives it nothing new: one step of its command, or none (10_state.md R39, R40). -/
def evTick (s : State) : Host.Outcome State Fault Refusal :=
  match s.run with
  | some r => evAdvance r s
  | none   => .next s

/-- An ALU instruction word reaches the ALU unit with its TE; the unit reads the fields of its own width N
(44_alu_dispatch_flags.md R193). -/
def issueAlu (w : InstrWord) (te : Bool) (rest : List HostAction) (s : State) : Host.Outcome State Fault Refusal :=
  exec (decodeWord s.params.n w.bits) { s with te := te, host := rest }

/-- A step. An ALU instruction is taken at once, even while the evaluator works, since the units share no state
(70_reset_and_hazards.md R325, 10_state.md R44). An evaluator command or a reset waits until the evaluator's command has
ended (R320, R325). With nothing presented an idle machine waits (60_exceptions.md R290). -/
def machineStep (s : State) : Host.Outcome State Fault Refusal :=
  match s.host with
  | []                  => evTick s
  | .wait :: rest       => evTick { s with host := rest }
  | .alu w te :: rest   => issueAlu w te rest s
  | .ev req :: rest     =>
    match s.run with
    | some r => evAdvance r s
    | none   => evStart req { s with host := rest }
  | .reset :: rest      =>
    match s.run with
    | some r => evAdvance r s
    | none   => .next (resetEvent { s with host := rest })

/-- The command in progress with token `t` at TP, or a fresh EVAL of that one token where none is in progress. -/
def placeToken (t : Token) (run : Option Run) : Run :=
  match run with
  | some r => { r with tm := r.tm.take r.tp ++ t :: r.tm.drop (r.tp + 1), tp := (r.tm.take r.tp).length }
  | none   => freshRun .eval [t] 0

/-- The state whose very next step runs the given instruction. A word is presented on IW ahead of the host's other moves;
a token is placed at TP of the evaluator's command, and the host leaves that step to the evaluator (log 4). -/
def placeInstruction (s : State) (nbits w : Nat) : State :=
  if nbits = 8 then
    { s with run := some (placeToken (BitVec.ofNat 8 w) s.run), host := .wait :: s.host }
  else { s with host := .alu ⟨wordWidth s.params.n, BitVec.ofNat (wordWidth s.params.n) w⟩ s.te :: s.host }

end Sys2Proof.Machine
end

