-- ==== Sys2Proof/Machine/Codec.lean ====
section
/-! DEFINITION. The host's operand loader BitVectorCodec (30_encoding.md R96, R97), the host-side conditions and their codes
(60_exceptions.md R293, R294), and the ALU assembler (30_encoding.md R93). No function here touches the machine's state. -/

namespace Sys2Proof.Machine

/-- The assembler's refusals (45_expression_assembler.md R236). -/
inductive AsmRefusal
  | reservedSubstring
  | digitToken
  | tilde
  | badChar
  | unbalanced
  | tooManyVars
  | tooLong
  | badValue
deriving DecidableEq, Repr

/-- A condition the host reports before any command is formed, with its info (60_exceptions.md R293, R294). -/
inductive HostError
  | domainError (value : Int)
  | asm (refusal : AsmRefusal) (position : Nat)
deriving DecidableEq, Repr

/-- The code of an assembler refusal (60_exceptions.md R294). -/
def asmCode (r : AsmRefusal) : BitVec 8 :=
  match r with
  | .reservedSubstring => 0x30#8
  | .digitToken        => 0x31#8
  | .tilde             => 0x32#8
  | .badChar           => 0x33#8
  | .unbalanced        => 0x34#8
  | .tooManyVars       => 0x35#8
  | .tooLong           => 0x36#8
  | .badValue          => 0x37#8

/-- The code of a host-side condition (60_exceptions.md R294). -/
def hostErrorCode (e : HostError) : BitVec 8 :=
  match e with
  | .domainError _ => 0x20#8
  | .asm r _       => asmCode r

/-- The refusal as the host reports it: with the info "position" of R294, which the spec does not define (log 13). -/
def asmError (r : AsmRefusal) (input : List (List Char)) : HostError :=
  .asm r (Config.asmPosition (asmCode r) input)

/-- `decimal_to_binary` (30_encoding.md R96) with the TRUNC indicator (R97). -/
def decimalToBinary (value : Int) (width : Nat) : Except HostError (BitVec width × Bool) :=
  if value < 0 then .error (.domainError value)
  else .ok (BitVec.ofNat width value.toNat, decide (2 ^ width ≤ value.toNat))

/-- `binary_to_decimal` (30_encoding.md R96): `uval`. -/
def binaryToDecimal {n : Nat} (v : BitVec n) : Nat := v.toNat

/-- `normalize` with its TRUNC indicator (30_encoding.md R97). -/
def normalizeWidth {m : Nat} (v : BitVec m) (n : Nat) : BitVec n × Bool :=
  if m ≤ n then (v.setWidth n, false) else (v.setWidth n, true)

/-- A host value offered as a bit (60_exceptions.md R293). -/
def hostBit (value : Int) : Except AsmRefusal Bool :=
  if value = 0 then .ok false else if value = 1 then .ok true else .error .badValue

/-! ### The ALU assembler (30_encoding.md R93; log 15) -/

/-- The mnemonics of 30_encoding.md R84. -/
def mnemonicOp (m : List Char) : Option (BitVec 4) :=
  if m = ['A', 'D', 'D'] then some 0#4
  else if m = ['S', 'U', 'B'] then some 1#4
  else if m = ['M', 'U', 'L'] then some 2#4
  else if m = ['D', 'I', 'V'] then some 3#4
  else if m = ['A', 'N', 'D'] then some 4#4
  else if m = ['O', 'R'] then some 5#4
  else if m = ['X', 'O', 'R'] then some 6#4
  else if m = ['N', 'O', 'T'] then some 7#4
  else if m = ['S', 'H', 'L'] then some 8#4
  else if m = ['S', 'H', 'R'] then some 9#4
  else if m = ['R', 'O', 'L'] then some 10#4
  else if m = ['R', 'O', 'R'] then some 11#4
  else none

/-- A decimal digit, `0` to `9`. DESIGN CHOICE (log 28): a digit outside ASCII is none, for 30_encoding.md R93 and for
45_expression_assembler.md R225 and R226, which do not define the word. -/
def isDecimalDigit (c : Char) : Bool := decide (48 ≤ c.toNat) && decide (c.toNat ≤ 57)

/-- A non-empty decimal literal at the front of the text: its value and the rest. -/
def readDecimal (text : List Char) : Option (Nat × List Char) :=
  match text.takeWhile isDecimalDigit with
  | []      => none
  | d :: ds => some ((d :: ds).foldl (fun v c => 10 * v + (c.toNat - 48)) 0, text.dropWhile isDecimalDigit)

/-- The operand list after the opening parenthesis: `a)` or `a, b)`. -/
def readOperands (text : List Char) : Option (Nat × Option Nat) :=
  match readDecimal text with
  | some (a, [')'])       => some (a, none)
  | some (a, ',' :: rest) =>
    match readDecimal (rest.dropWhile (fun c => c == ' ')) with
    | some (b, [')']) => some (a, some b)
    | _               => none
  | _ => none

/-- The ALU assembler (30_encoding.md R93) for an instance of width `n`: `none` is a refusal. Each operand is `vec_N` of its
value (R96). DESIGN CHOICE (log 15): a literal of 2^N or more is truncated and nothing is reported; R93 gives `A = vec_N(a)`
and does not say whether the host also gets the TRUNC that R97 gives `decimal_to_binary`. -/
def assembleAlu (n : Nat) (text : List Char) : Option InstrWord :=
  match mnemonicOp (text.takeWhile (fun c => c != '(')), text.dropWhile (fun c => c != '(') with
  | some op, '(' :: body =>
    (readOperands body).map fun ab => packBinary n op ⟨n, BitVec.ofNat n ab.1⟩ (ab.2.map fun b => ⟨n, BitVec.ofNat n b⟩)
  | _, _ => none

end Sys2Proof.Machine
end

