-- ==== Sys2Proof/Machine/Assembler.lean ====
section
/-! DEFINITION. The Boolean-expression assembler (45_expression_assembler.md R220 to R236): tokenizer, shunting-yard
conversion, variable slots, token emission, and the assignment the host builds. An expression is a list of characters. -/

namespace Sys2Proof.Machine

/-- A variable name: a run of upper-case ASCII letters (R220, R222). -/
abbrev Name := List Char

/-- The operators (R220, R223). -/
inductive OpSym
  | not
  | and
  | or
  | xor
deriving DecidableEq, Repr

/-- What the tokenizer extracts (R222, R223). -/
inductive Lexeme
  | name (n : Name)
  | op (o : OpSym)
  | lparen
  | rparen
deriving DecidableEq, Repr

/-- An element of a postfix program before slots are given (R227). -/
inductive PostfixItem
  | name (n : Name)
  | op (o : OpSym)
deriving DecidableEq, Repr

/-- An element of the operator stack (R227). -/
inductive StackItem
  | op (o : OpSym)
  | lparen
deriving DecidableEq, Repr

/-! ### Lexical rules -/

/-- Case folding of ASCII letters (R221). -/
def foldCase (c : Char) : Char :=
  if 97 ≤ c.toNat ∧ c.toNat ≤ 122 then Char.ofNat (c.toNat - 32) else c

/-- An upper-case ASCII letter (R221). -/
def isLetter (c : Char) : Bool := decide (65 ≤ c.toNat) && decide (c.toNat ≤ 90)

/-- Space, tab, CR and LF, the characters R222 drops. DESIGN CHOICE (log 27): no other character, such as the vertical tab or
the form feed, is the "whitespace" that R226 exempts from ASM_BAD_CHAR and does not define. -/
def isSeparator (c : Char) : Bool := c == ' ' || c == '\t' || c == '\r' || c == '\n'

/-- The word operators (R223). -/
def wordOperator (run : Name) : Option OpSym :=
  if run = ['A', 'N', 'D'] then some .and
  else if run = ['O', 'R'] then some .or
  else if run = ['X', 'O', 'R'] then some .xor
  else if run = ['N', 'O', 'T'] then some .not
  else none

/-- `word` occurs in `run` as a substring. -/
def hasSubstring (word : List Char) : List Char → Bool
  | []        => word.isEmpty
  | c :: rest => word.isPrefixOf (c :: rest) || hasSubstring word rest

/-- The name contains an operator word (R224). -/
def containsOperatorWord (run : Name) : Bool :=
  hasSubstring ['A', 'N', 'D'] run || hasSubstring ['O', 'R'] run || hasSubstring ['X', 'O', 'R'] run ||
    hasSubstring ['N', 'O', 'T'] run

/-- A maximal letter run that has ended: nothing, a word operator, a refused name, or a name (R222 to R224). -/
def closeRun (run : Name) : Except AsmRefusal (List Lexeme) :=
  if run = [] then .ok []
  else match wordOperator run with
    | some o => .ok [.op o]
    | none   => if containsOperatorWord run then .error .reservedSubstring else .ok [.name run]

/-- A character outside a letter run (R222, R225, R226). Whitespace outside R222's list (log 27) and a digit outside ASCII
(log 28) are refused as any other character. -/
def charLexeme (c : Char) : Except AsmRefusal (List Lexeme) :=
  if isSeparator c then .ok []
  else if c = '&' then .ok [.op .and]
  else if c = '|' then .ok [.op .or]
  else if c = '^' then .ok [.op .xor]
  else if c = '!' then .ok [.op .not]
  else if c = '(' then .ok [.lparen]
  else if c = ')' then .ok [.rparen]
  else if isDecimalDigit c then .error .digitToken
  else if c = '~' then .error .tilde
  else .error .badChar

/-- The scan from left to right; `run` is the letter run being read (R222). The first refusal met ends it (log 14). -/
def scan (run : Name) : List Char → Except AsmRefusal (List Lexeme)
  | []        => closeRun run
  | c :: rest =>
    if isLetter c then scan (run ++ [c]) rest
    else match closeRun run, charLexeme c with
      | .error e, _     => .error e
      | .ok _, .error e => .error e
      | .ok xs, .ok ys  =>
        match scan [] rest with
        | .ok zs   => .ok (xs ++ ys ++ zs)
        | .error e => .error e

/-- The tokenizer: fold the case, then scan (R221, R222). -/
def tokenize (text : List Char) : Except AsmRefusal (List Lexeme) := scan [] (text.map foldCase)

/-! ### Infix to postfix -/

/-- Precedence (R228, 90_conflicts.md C1). -/
def prec (o : OpSym) : Nat :=
  match o with
  | .not => 3
  | .and => 2
  | .or  => 1
  | .xor => 1

/-- The converter's two lists: the output so far, and the operator stack with its top first (R227). -/
structure Yard where
  out : List PostfixItem
  ops : List StackItem
deriving DecidableEq, Repr

/-- `while the top is an operator of precedence ≥ p: out.append(ops.pop())` (R227). -/
def popOperators (p : Nat) (out : List PostfixItem) : List StackItem → Yard
  | .op o :: ops => if p ≤ prec o then popOperators p (out ++ [.op o]) ops else { out := out, ops := .op o :: ops }
  | ops          => { out := out, ops := ops }

/-- `)`: pop to the matching `(` and discard it; none open is refused (R227, R230). -/
def closeParen (out : List PostfixItem) : List StackItem → Except AsmRefusal Yard
  | []             => .error .unbalanced
  | .lparen :: ops => .ok { out := out, ops := ops }
  | .op o :: ops   => closeParen (out ++ [.op o]) ops

/-- The end of the scan: drain the stack; an open `(` is refused (R227, R230). -/
def drain (out : List PostfixItem) : List StackItem → Except AsmRefusal (List PostfixItem)
  | []           => .ok out
  | .lparen :: _ => .error .unbalanced
  | .op o :: ops => drain (out ++ [.op o]) ops

/-- One lexeme (R227). Unary NOT takes the operator branch like the others. -/
def shunt (y : Yard) (t : Lexeme) : Except AsmRefusal Yard :=
  match t with
  | .name n => .ok { y with out := y.out ++ [.name n] }
  | .lparen => .ok { y with ops := .lparen :: y.ops }
  | .rparen => closeParen y.out y.ops
  | .op o   =>
    let popped := popOperators (prec o) y.out y.ops
    .ok { popped with ops := .op o :: popped.ops }

/-- The lexemes from left to right (R227). -/
def shuntAll (y : Yard) : List Lexeme → Except AsmRefusal Yard
  | []        => .ok y
  | t :: rest =>
    match shunt y t with
    | .ok y'   => shuntAll y' rest
    | .error e => .error e

/-- `infix_to_postfix` (R227). -/
def infixToPostfix (tokens : List Lexeme) : Except AsmRefusal (List PostfixItem) :=
  match shuntAll { out := [], ops := [] } tokens with
  | .ok y    => drain y.out y.ops
  | .error e => .error e

/-! ### Slots and tokens -/

/-- Order of names by character code; a prefix sorts first (R232). -/
def nameBefore : Name → Name → Bool
  | [], []           => false
  | [], _ :: _       => true
  | _ :: _, []       => false
  | c :: cs, d :: ds => decide (c.toNat < d.toNat) || (decide (c.toNat = d.toNat) && nameBefore cs ds)

/-- Insertion into a sorted list without repeats (R232). -/
def insertName (n : Name) : List Name → List Name
  | []      => [n]
  | m :: ms => if n = m then m :: ms else if nameBefore n m then n :: m :: ms else m :: insertName n ms

/-- The sorted list of distinct names a postfix program refers to (R232). -/
def sortedNames : List PostfixItem → List Name
  | []              => []
  | .name n :: rest => insertName n (sortedNames rest)
  | .op _ :: rest   => sortedNames rest

/-- The token of an operator (R233). -/
def operatorToken (o : OpSym) : Token :=
  match o with
  | .and => 0x20#8
  | .or  => 0x40#8
  | .xor => 0x60#8
  | .not => 0x80#8

/-- Token emission (R233): a name becomes its slot number. -/
def emitToken (names : List Name) (item : PostfixItem) : Token :=
  match item with
  | .name n => BitVec.ofNat 8 (names.idxOf n)
  | .op o   => operatorToken o

/-- What the assembler produces: the names in slot order and the tokens (R232, R233). -/
structure Program where
  names  : List Name
  tokens : List Token
deriving DecidableEq, Repr

/-- Slots and tokens of a postfix program, for an instance with these parameters (R232, R233). -/
def emitProgram (p : Params) (items : List PostfixItem) : Except AsmRefusal Program :=
  let names := sortedNames items
  if Config.NV < names.length then .error .tooManyVars
  else if p.lmax < items.length then .error .tooLong
  else .ok { names := names, tokens := items.map (emitToken names) }

/-- The assembler (R220 to R234): an expression becomes a program for an instance with these parameters, or is refused. -/
def assemble (p : Params) (text : List Char) : Except AsmRefusal Program :=
  match tokenize text with
  | .error e   => .error e
  | .ok tokens =>
    match infixToPostfix tokens with
    | .error e  => .error e
    | .ok items => emitProgram p items

/-- The assembler's verdict as the host reports it, with code and info (60_exceptions.md R294). -/
def assembleReport (p : Params) (text : List Char) : Except HostError Program :=
  match assemble p text with
  | .ok prog => .ok prog
  | .error r => .error (asmError r [text])

/-! ### Assignments and requests -/

/-- `assignment.get(name, 0)`; the key is compared as it stands (R235). -/
def assignedBit (assignment : List (Name × Int)) (n : Name) : Bool :=
  (assignment.lookup n).getD 0 == 1

/-- ASGIN (R235): slot `k` holds the value of name `k`, unbound names and slots past the last name 0. A value other than 0
or 1 is refused, whether or not the expression uses its name (log 16). -/
def buildAsgin (names : List Name) (assignment : List (Name × Int)) : Except AsmRefusal (BitVec Config.NV) :=
  if assignment.all (fun kv => kv.2 == 0 || kv.2 == 1) then
    .ok (tabulate (fun k => match names[k]? with | some n => assignedBit assignment n | none => false) Config.NV)
  else .error .badValue

/-- What the host drives for an assembled program (60_exceptions.md R304). -/
def programRequest (cmd : BitVec 2) (prog : Program) (asgin : BitVec Config.NV) : EvRequest :=
  { cmd := cmd, prog := prog.tokens, plen := prog.tokens.length, asgin := asgin,
    nvin := BitVec.ofNat 6 prog.names.length }

end Sys2Proof.Machine
end

