-- ==== Sys2Proof/Machine/Format.lean ====
section
/-! DEFINITION. The host's formatting functions (60_exceptions.md R306). Text is a list of characters, a table a list of
lines (log 23). -/

namespace Sys2Proof.Machine

/-- `0` or `1`. -/
def bitChar (b : Bool) : Char := if b then '1' else '0'

/-- Clusters of four characters from the left, separated by one space; four characters or fewer stay as they are (R306). -/
def groupFour : List Char → List Char
  | a :: b :: c :: d :: rest => if rest.isEmpty then [a, b, c, d] else a :: b :: c :: d :: ' ' :: groupFour rest
  | text                     => text

/-- The bits of `v` as characters, bit 0 first. -/
def bitChars {n : Nat} (v : BitVec n) : List Char := (List.range n).map fun i => bitChar (v.getLsbD i)

/-- `format_binary_string` (R306, 20_memory.md R64). -/
def formatBinary {n : Nat} (v : BitVec n) (msbFirst : Bool) : List Char :=
  groupFour (if msbFirst then (bitChars v).reverse else bitChars v)

/-- Cells joined by ` | `. -/
def joinCells : List (List Char) → List Char
  | []           => []
  | [c]          => c
  | c :: d :: cs => c ++ [' ', '|', ' '] ++ joinCells (d :: cs)

/-- Why a table has no rendering: the assembler refuses the expression, or the TT command faults. -/
inductive TableError
  | refused (r : AsmRefusal)
  | faulted (f : EvFault)
deriving DecidableEq, Repr

/-- One line of the table: the row's variable bits, most significant variable first, then the output (R306,
46_postfix_machine.md R260). -/
def tableLine (n row : Nat) (out : Bool) : List Char :=
  joinCells (((List.range n).map fun j => [bitChar ((rowAssignment n row).getLsbD j)]) ++ [[bitChar out]])

/-- `format_truth_table` (R306): the header and one line per row. The checks on the variable count are those of TT
(46_postfix_machine.md R259). -/
def formatTruthTable (p : Params) (text : List Char) : Except TableError (List (List Char)) :=
  match assemble p text with
  | .error r => .error (.refused r)
  | .ok prog =>
    let n := prog.names.length
    if n = 0 then .error (.faulted .noVariables)
    else if p.ttMaxVars < n then .error (.faulted (.ttTooLarge n))
    else match tableRows p.sd n prog.tokens with
      | .error f => .error (.faulted f)
      | .ok rows =>
        .ok (joinCells (prog.names ++ [['O', 'U', 'T']]) :: rows.zipIdx.map fun r => tableLine n r.2 r.1)

end Sys2Proof.Machine
end

