-- ==== Sys2Proof/Safety.lean ====
section
/-! DEFINITION. The terms the claims are stated in: what a legal state is, a run of several steps, the result of an ALU
instruction in plain arithmetic, and what a Boolean expression means apart from its program. -/

namespace Sys2Proof.Machine

/-! ### Runs -/

/-- The next step is taken only from a next state. -/
def andThen (o : Host.Outcome State Fault Refusal) (f : State → Host.Outcome State Fault Refusal) :
    Host.Outcome State Fault Refusal :=
  match o with
  | .next s    => f s
  | .fault r   => .fault r
  | .refused r => .refused r

/-- `k` steps of the machine. -/
def runSteps : Nat → State → Host.Outcome State Fault Refusal
  | 0, s     => .next s
  | k + 1, s => andThen (step s) (runSteps k)

/-! ### The ALU's results in plain arithmetic -/

/-- The number of set bits. -/
def setBits {n : Nat} (v : BitVec n) : Nat := ((List.range n).filter fun i => v.getLsbD i).length

/-- An odd number of bits is set (44_alu_dispatch_flags.md R200). -/
def oddlySet {n : Nat} (v : BitVec n) : Bool := setBits v % 2 == 1

/-- The flags of a result, by R197 to R200 of 44_alu_dispatch_flags.md. -/
def resultFlags {n : Nat} (r : BitVec n) (c v : Bool) : Flags :=
  { z := decide (r = 0#n), c := c, v := v, s := r.msb, p := oddlySet r }

/-- The value lies outside the two's-complement range of `n` bits (41_arithmetic.md R137). -/
def signedOverflow (n : Nat) (x : Int) : Bool := decide (x < -(2 ^ (n - 1))) || decide (2 ^ (n - 1) ≤ x)

/-- The Carry that SUB writes (41_arithmetic.md R137). -/
def borrowLaw {n : Nat} (mode : SubBorrowMode) (a b : BitVec n) : Bool :=
  match mode with
  | .literal => decide (a.toNat < b.toNat) || decide (b = 0#n)
  | .compare => decide (a.toNat < b.toNat)

/-- The Overflow that ADD writes (41_arithmetic.md R140). -/
def addOverflowLaw {n : Nat} (mode : AddVMode) (a b : BitVec n) : Bool :=
  match mode with
  | .zero   => false
  | .signed => signedOverflow n (a.toInt + b.toInt)

/-- The state a completed ALU instruction leaves: RES, the flags of that result, EVT, FAULT = 0, the trace buffer holding
`records` if the instruction was traced; everything else as before (44_alu_dispatch_flags.md R193). -/
def aluDone (s : State) {n : Nat} (r : BitVec n) (c v : Bool) (e : Event) (records : List AluRecord) : State :=
  { s with
    res := ⟨n, r⟩
    flags := resultFlags r c v
    evt := e
    fault := none
    trace := if s.te then records else s.trace }

/-- The carry into bit `k` of an addition: whether the low `k` bits sum to at least `2^k`. -/
def carryInto {n : Nat} (a b : BitVec n) (k : Nat) : Bool := decide (2 ^ k ≤ a.toNat % 2 ^ k + b.toNat % 2 ^ k)

/-- The records of a ripple-carry add in plain arithmetic: per bit the operand bits, the carries and the sum bit
(60_exceptions.md R305). -/
def addTraceLaw {n : Nat} (a b : BitVec n) : List AluRecord :=
  (List.range n).map fun i =>
    .addBit i (a.getLsbD i) (b.getLsbD i) (carryInto a b i) ((a + b).getLsbD i) (carryInto a b (i + 1))

/-- The records of a binary gate at every bit position, without the model's gates: one per bit (60_exceptions.md R305), with
the two inputs and the output (the model's choice of fields, log 8). -/
def gateTraceLaw {n : Nat} (op : Bool → Bool → Bool) (a b : BitVec n) : List AluRecord :=
  (List.range n).map fun i => .gateBit i (a.getLsbD i) (some (b.getLsbD i)) (op (a.getLsbD i) (b.getLsbD i))

/-- One iteration of restoring division in plain arithmetic, from the partial remainder and the quotient before it. -/
structure DivideRow where
  /-- `Acc` after the shift. -/
  acc    : Nat
  /-- `Q` after the shift. -/
  q      : Nat
  /-- The trial difference `Ap`. -/
  ap     : Nat
  /-- `Ap` is not negative. -/
  commit : Bool
deriving DecidableEq, Repr

/-- The iteration that the registers `(A, Q)`, of `m` and `n` bits, lead to with divisor `b` (41_arithmetic.md R134): shift
the pair left by one, subtract `b`, look at the sign. -/
def divideRow (m n b : Nat) (regs : Nat × Nat) : DivideRow :=
  let acc := (2 * regs.1 + regs.2 / 2 ^ (n - 1)) % 2 ^ m
  let ap := (acc + (2 ^ m - b)) % 2 ^ m
  { acc := acc, q := 2 * regs.2 % 2 ^ n, ap := ap, commit := decide (ap < 2 ^ (m - 1)) }

/-- The registers after `k` iterations of `a` divided by `b`: an iteration that commits keeps `Ap` and sets bit 0 of Q, one
that restores keeps `Acc` (41_arithmetic.md R134). -/
def divideRegs (m n a b : Nat) : Nat → Nat × Nat
  | 0     => (0, a)
  | k + 1 =>
    let row := divideRow m n b (divideRegs m n a b k)
    if row.commit then (row.ap, row.q + 1) else (row.acc, row.q)

/-- The records of a division by a non-zero divisor, from the plain-arithmetic loop (60_exceptions.md R305). -/
def divideTraceLaw (m n a b : Nat) : List AluRecord :=
  ((List.range n).map fun i =>
    let row := divideRow m n b (divideRegs m n a b i)
    .divIteration i ⟨m, BitVec.ofNat m row.acc⟩ ⟨n, BitVec.ofNat n row.q⟩ ⟨m, BitVec.ofNat m row.ap⟩ row.commit) ++
  [.divResult ⟨n, BitVec.ofNat n (divideRegs m n a b n).2⟩ ⟨n, BitVec.ofNat n (divideRegs m n a b n).1⟩]

/-- The opcodes that have a Carry source (44_alu_dispatch_flags.md R192, R202). -/
def mayCarry : Instr → Bool
  | .aluAdd _ _ | .aluSub _ _ | .aluShl _ | .aluShr _ | .aluRol _ | .aluRor _ => true
  | .aluMul _ _ | .aluDiv _ _ | .aluAnd _ _ | .aluOr _ _ | .aluXor _ _ | .aluNot _ => false
  | .aluUnassigned12 | .aluUnassigned13 | .aluUnassigned14 | .aluUnassigned15 | .aluInvalid _ _ => false
  | .tokVar _ | .tokAnd | .tokOr | .tokXor | .tokNot | .tokReserved _ => false

/-- The opcodes that have an Overflow source under the parameters (44_alu_dispatch_flags.md R192, R202). -/
def mayOverflow (p : Params) : Instr → Bool
  | .aluSub _ _ | .aluMul _ _ => true
  | .aluAdd _ _ => decide (p.addVMode = .signed)
  | .aluDiv _ _ | .aluAnd _ _ | .aluOr _ _ | .aluXor _ _ | .aluNot _ => false
  | .aluShl _ | .aluShr _ | .aluRol _ | .aluRor _ => false
  | .aluUnassigned12 | .aluUnassigned13 | .aluUnassigned14 | .aluUnassigned15 | .aluInvalid _ _ => false
  | .tokVar _ | .tokAnd | .tokOr | .tokXor | .tokNot | .tokReserved _ => false

/-! ### The two units' shares of the state (10_state.md R44) -/

/-- `s` with the evaluator unit's state of `u`. -/
def withEvaluatorOf (s u : State) : State :=
  { s with out := u.out, ttout := u.ttout, efault := u.efault, etrace := u.etrace, run := u.run }

/-- `s` with the ALU unit's state of `u`. -/
def withAluOf (s u : State) : State :=
  { s with res := u.res, flags := u.flags, evt := u.evt, fault := u.fault, te := u.te, trace := u.trace }

/-- The token pointer a step record names; the final record names none (46_postfix_machine.md R262). -/
def recordTp : StepRecord → Option Nat
  | .load tp _ _ _      => some tp
  | .apply tp _ _ _ _ _ => some tp
  | .applyNot tp _ _ _  => some tp
  | .final _            => none

/-! ### Legal states -/

/-- The command in progress is one the evaluator can be in (10_state.md R32, R40; 46_postfix_machine.md R258, R259). -/
def legalRun (p : Params) (r : Run) : Prop :=
  r.tp ≤ r.tm.length ∧ r.tm.length ≤ p.lmax ∧ r.stk.length ≤ r.tp ∧
  match r.kind with
  | .eval | .step => True
  | .table n row rows =>
    1 ≤ n ∧ n ≤ p.ttMaxVars ∧ row < 2 ^ n ∧ rows.width = 2 ^ p.ttMaxVars ∧
    (∀ i, row ≤ i → rows.bits.getLsbD i = false) ∧ r.asg = rowAssignment n row

/-- The info of an ALU fault is one that R291 and R292 of 60_exceptions.md give. -/
def legalAluFault : AluFault → Prop
  | .invalidInstruction mask => mask ≠ 0#2
  | .operandBMissing op      => op.toNat ≤ 6

/-- The info of an evaluator fault is one that its cause admits, and the stack never overflows (60_exceptions.md R294,
46_postfix_machine.md R258). -/
def legalEvFault (p : Params) : EvFault → Prop
  | .badCommand cmd    => cmd = 3#2
  | .progTooLong plen  => p.lmax < plen ∧ plen < 2 ^ plenWidth p.lmax
  | .badToken tp       => tp < p.lmax
  | .stackUnderflow tp => tp < p.lmax
  | .stackOverflow _   => False
  | .finalDepth sp     => sp ≠ 1 ∧ sp ≤ p.lmax
  | .noVariables       => True
  | .ttTooLarge n      => p.ttMaxVars < n ∧ n < 64

/-- The latches have the widths of their ports (10_state.md R30). -/
def legalWidths (s : State) : Prop := s.res.width = s.params.n ∧ s.ttout.width = 2 ^ s.params.ttMaxVars

/-- The ALU latches agree with each other: Sign and Parity are those of RES, Zero is set only over a zero RES, a soft event
stands beside a zero RES and only the Zero flag (44_alu_dispatch_flags.md R197 to R200, R202; 60_exceptions.md R297). Zero
itself may be clear over a zero RES: reset leaves it so. -/
def legalLatches (s : State) : Prop :=
  s.flags.s = s.res.bits.msb ∧ s.flags.p = oddlySet s.res.bits ∧ (s.flags.z = true → s.res.bits = 0#s.res.width) ∧
  (s.evt ≠ .none → s.res.bits = 0#s.res.width ∧ s.flags = resultFlags s.res.bits false false)

/-- The invariant of the machine. -/
def legalState (s : State) : Prop :=
  s.params.legal = true ∧ legalWidths s ∧ legalLatches s ∧ (∀ f, s.fault = some f → legalAluFault f) ∧
  (∀ f, s.efault = some f → legalEvFault s.params f) ∧ (∀ r, s.run = some r → legalRun s.params r)

/-! ### Boolean expressions (45_expression_assembler.md R220, R228, R229; 46_postfix_machine.md R264) -/

/-- A Boolean expression as written, parentheses included. -/
inductive Formula
  | name (n : Name)
  | paren (e : Formula)
  | neg (e : Formula)
  | bin (op : BinOp) (l r : Formula)
deriving DecidableEq, Repr

/-- A name or a parenthesised expression: what a NOT may stand before, since a NOT directly before another is the exception
of R264. -/
def Formula.isAtom : Formula → Bool
  | .name _ | .paren _ => true
  | .neg _ | .bin _ _ _ => false

/-- A name, a parenthesised expression or a NOT. -/
def Formula.isFactor : Formula → Bool
  | .name _ | .paren _ | .neg _ => true
  | .bin _ _ _ => false

/-- A factor, or an AND. -/
def Formula.isTerm : Formula → Bool
  | .name _ | .paren _ | .neg _ => true
  | .bin .and _ _ => true
  | .bin .or _ _ | .bin .xor _ _ => false

/-- The tree is the one that precedence NOT > AND > OR, XOR and left association give its text (R228, R229). -/
def Formula.grammatical : Formula → Bool
  | .name _       => true
  | .paren e      => e.grammatical
  | .neg e        => e.isAtom && e.grammatical
  | .bin .and l r => l.isTerm && r.isFactor && l.grammatical && r.grammatical
  | .bin .or l r  => r.isTerm && l.grammatical && r.grammatical
  | .bin .xor l r => r.isTerm && l.grammatical && r.grammatical

/-- The operator's lexeme. -/
def binLexeme : BinOp → Lexeme
  | .and => .op .and
  | .or  => .op .or
  | .xor => .op .xor

/-- The expression as the tokenizer yields it. -/
def Formula.lexemes : Formula → List Lexeme
  | .name n      => [.name n]
  | .paren e     => .lparen :: e.lexemes ++ [.rparen]
  | .neg e       => .op .not :: e.lexemes
  | .bin op l r  => l.lexemes ++ binLexeme op :: r.lexemes

/-- The usual Boolean value under an assignment of the names. -/
def Formula.value (v : Name → Bool) : Formula → Bool
  | .name n       => v n
  | .paren e      => e.value v
  | .neg e        => !(e.value v)
  | .bin .and l r => l.value v && r.value v
  | .bin .or l r  => l.value v || r.value v
  | .bin .xor l r => xor (l.value v) (r.value v)

end Sys2Proof.Machine
end

