-- ==== Sys2Proof/Certificates/Slice0/Obligations.lean ====
section
/-! DEFINITION. The statements about the model. Each docstring names the rules of spec/ it formalises, and the log entry of
any choice of the model's it rests on. -/

open Sys2Proof Sys2Proof.Machine

/-! ### Reset and the step -/

/-- 10_state.md R45, 70_reset_and_hazards.md R320: the values every latch has after power-on reset, and after a reset the
host asserts between commands. That a host reset keeps the instance's parameters and the rest of the host's list is the
model's reading (log 26). -/
def Obligations.ResetSetsEveryLatch : Prop :=
  (State.reset.flags = { z := false, c := false, v := false, s := false, p := false } ∧ State.reset.res = ⟨8, 0#8⟩ ∧
    eventCode State.reset.evt = 0#2 ∧ faultPort State.reset = 0#8 ∧ State.reset.trace = [] ∧
    State.reset.out = false ∧ State.reset.ttout = ⟨256, 0#256⟩ ∧ efaultPort State.reset = 0#8 ∧
    State.reset.etrace = [] ∧ State.reset.run = none) ∧
  ∀ s rest, s.host = .reset :: rest → s.run = none →
    ∃ t, step s = .next t ∧
      t.flags = { z := false, c := false, v := false, s := false, p := false } ∧ t.res = ⟨s.params.n, 0#s.params.n⟩ ∧
      eventCode t.evt = 0#2 ∧ faultPort t = 0#8 ∧ t.trace = [] ∧ t.out = false ∧
      t.ttout = ⟨2 ^ s.params.ttMaxVars, 0#(2 ^ s.params.ttMaxVars)⟩ ∧
      efaultPort t = 0#8 ∧ t.etrace = [] ∧ t.run = none ∧ t.host = rest ∧ t.params = s.params

/-- The invariant of `legalState` holds after reset. -/
def Obligations.ResetStateIsLegal : Prop := legalState State.reset

/-- 44_alu_dispatch_flags.md R193: a step whose host presents an instruction word runs the decoded instruction, with TE on
the port and the host's entry taken. -/
def Obligations.StepRunsThePresentedWord : Prop :=
  ∀ s w te rest, s.host = .alu w te :: rest →
    step s = exec (decodeWord s.params.n w.bits) { s with te := te, host := rest }

/-- 46_postfix_machine.md R252: while a command runs and the host presents no instruction word, a step runs the token at
TP. What becomes of the host's list is the model's choice: a waiting host's entry is taken and an evaluator command stays
where it is until the command has ended (log 3), and so does a reset (log 26). -/
def Obligations.StepRunsTheTokenAtTp : Prop :=
  ∀ s r t, s.run = some r → r.tm[r.tp]? = some t →
    (s.host = [] → step s = exec (decodeToken t) s) ∧
    (∀ rest, s.host = .wait :: rest → step s = exec (decodeToken t) { s with host := rest }) ∧
    (∀ req rest, s.host = .ev req :: rest → step s = exec (decodeToken t) s) ∧
    (∀ rest, s.host = .reset :: rest → step s = exec (decodeToken t) s)

/-! ### Encoding -/

/-- 30_encoding.md R84, R91: words and tokens written out from the encoding tables (95_test_vectors.md, sections 1, 2 and
2.8, the last for N = 4) decode to the instructions they stand for. -/
def Obligations.ListedWordsDecode : Prop :=
  decodeWord 8 0x700F07#23 = .aluAdd ⟨8, 15#8⟩ (some ⟨8, 7#8⟩) ∧
  decodeWord 8 0x710503#23 = .aluSub ⟨8, 5#8⟩ (some ⟨8, 3#8⟩) ∧
  decodeWord 8 0x670F00#23 = .aluNot ⟨8, 15#8⟩ ∧ decodeWord 8 0x770F07#23 = .aluNot ⟨8, 15#8⟩ ∧
  decodeWord 8 0x6A8100#23 = .aluRol ⟨8, 129#8⟩ ∧ decodeWord 8 0x7C0909#23 = .aluUnassigned12 ∧
  decodeWord 8 0x600507#23 = .aluAdd ⟨8, 5#8⟩ none ∧ decodeWord 8 0x500F07#23 = .aluInvalid true false ∧
  decodeWord 4 0x7309#15 = .aluDiv ⟨4, 0#4⟩ (some ⟨4, 9#4⟩) ∧
  decodeToken 0x1F#8 = .tokVar 31#5 ∧ decodeToken 0x60#8 = .tokXor ∧ decodeToken 0x81#8 = .tokReserved 0x81#8

/-- 30_encoding.md R80 to R91: in an instance of any width N, decoding the encoding of a well-formed instruction gives it
back, for every instruction and every operand. -/
def Obligations.DecodeInvertsEncode : Prop :=
  ∀ (n : Nat) (i : Instr), i.wf n = true → decode n (encode n i) = i

/-- 30_encoding.md R85, R86, R87: for N = 8 every word decodes by the match and mask of its row, the operands are bits 15..8
and 7..0, VB and B are ignored by unary and unassigned opcodes, and a word without VOP or VA is invalid. -/
def Obligations.WordsDecodeByMatchAndMask : Prop :=
  (∀ row ∈ [(0, Instr.aluAdd), (1, Instr.aluSub), (2, Instr.aluMul), (3, Instr.aluDiv), (4, Instr.aluAnd),
      (5, Instr.aluOr), (6, Instr.aluXor)], ∀ w : BitVec 23,
    (w &&& 0x7F0000#23 = 0x700000#23 ||| BitVec.ofNat 23 row.1 <<< 16 →
      decodeWord 8 w = row.2 ⟨8, (w >>> 8).setWidth 8⟩ (some ⟨8, w.setWidth 8⟩)) ∧
    (w &&& 0x7F0000#23 = 0x600000#23 ||| BitVec.ofNat 23 row.1 <<< 16 →
      decodeWord 8 w = row.2 ⟨8, (w >>> 8).setWidth 8⟩ none)) ∧
  (∀ row ∈ [(7, Instr.aluNot), (8, Instr.aluShl), (9, Instr.aluShr), (10, Instr.aluRol), (11, Instr.aluRor)],
    ∀ w : BitVec 23, w &&& 0x6F0000#23 = 0x600000#23 ||| BitVec.ofNat 23 row.1 <<< 16 →
      decodeWord 8 w = row.2 ⟨8, (w >>> 8).setWidth 8⟩) ∧
  (∀ row ∈ [(12, Instr.aluUnassigned12), (13, Instr.aluUnassigned13), (14, Instr.aluUnassigned14),
      (15, Instr.aluUnassigned15)], ∀ w : BitVec 23,
    w &&& 0x6F0000#23 = 0x600000#23 ||| BitVec.ofNat 23 row.1 <<< 16 → decodeWord 8 w = row.2) ∧
  (∀ w : BitVec 23, w &&& 0x600000#23 ≠ 0x600000#23 → decodeWord 8 w = .aluInvalid (w.getLsbD 22) (w.getLsbD 21))

/-- 30_encoding.md R91, R92: the complete token map. -/
def Obligations.TokensDecodeByTheTokenMap : Prop :=
  ∀ t : Token,
    (t.toNat < 0x20 → decodeToken t = .tokVar (BitVec.ofNat 5 t.toNat)) ∧
    (t = 0x20#8 → decodeToken t = .tokAnd) ∧ (t = 0x40#8 → decodeToken t = .tokOr) ∧
    (t = 0x60#8 → decodeToken t = .tokXor) ∧ (t = 0x80#8 → decodeToken t = .tokNot) ∧
    (tokenListed t = false → decodeToken t = .tokReserved t)

/-! ### The circuits and the arithmetic engine, for every width -/

/-- 40_gates_circuits.md R113: the sum bit is the exclusive or of the three inputs; the carry is 1 iff at least two of
them are. -/
def Obligations.FullAdderAddsThreeBits : Prop :=
  ∀ a b cin : Bool, (fullAdder a b cin).1 = (a ^^ b ^^ cin) ∧
    ((fullAdder a b cin).2 = true ↔ 2 ≤ a.toNat + b.toNat + cin.toNat)

/-- 41_arithmetic.md R135: the laws of add. -/
def Obligations.RippleAddLaws : Prop :=
  ∀ (m : Nat) (a b : BitVec m),
    (engineAdd a b).1.toNat = (a.toNat + b.toNat) % 2 ^ m ∧
    ((engineAdd a b).2 = true ↔ 2 ^ m ≤ a.toNat + b.toNat) ∧
    (engineAdd a b).1.toInt = (a.toInt + b.toInt).bmod (2 ^ m)

/-- 41_arithmetic.md R136: the laws of negate. -/
def Obligations.NegateLaws : Prop :=
  ∀ (m : Nat) (a : BitVec m),
    (engineNegate a).toNat = (2 ^ m - a.toNat) % 2 ^ m ∧ engineNegate (0#m) = 0#m ∧
    (0 < m → engineNegate (BitVec.ofNat m (2 ^ (m - 1))) = BitVec.ofNat m (2 ^ (m - 1))) ∧
    engineNegate (engineNegate a) = a

/-- 41_arithmetic.md R137: the laws of subtract, under both borrow modes. -/
def Obligations.SubtractLaws : Prop :=
  ∀ (n : Nat), 0 < n → ∀ (a b : BitVec n) (mode : SubBorrowMode),
    ((engineSubtract mode a b).diff.toNat : Int) = ((a.toNat : Int) - b.toNat) % 2 ^ n ∧
    ((engineSubtract mode a b).overflow = true ↔
      a.toInt - b.toInt < -(2 ^ (n - 1)) ∨ 2 ^ (n - 1) - 1 < a.toInt - b.toInt) ∧
    ((engineSubtract .literal a b).borrow = true ↔ a.toNat < b.toNat ∨ b = 0#n) ∧
    ((engineSubtract .compare a b).borrow = true ↔ a.toNat < b.toNat) ∧
    ((engineSubtract .literal a b).borrow ≠ (engineSubtract .compare a b).borrow ↔ b = 0#n)

/-- 41_arithmetic.md R133, R138: the shift-and-add product is exact. -/
def Obligations.MultiplyIsExact : Prop :=
  ∀ (n : Nat) (a b : BitVec n), (engineMultiply a b).toNat = a.toNat * b.toNat

/-- 41_arithmetic.md R134, R138: with an accumulator of N + 1 bits restoring division is exact for every non-zero
divisor. -/
def Obligations.DivideWideIsExact : Prop :=
  ∀ (n : Nat) (a b : BitVec n), b ≠ 0#n →
    (engineDivide (n + 1) a b).quotient.toNat = a.toNat / b.toNat ∧
    (engineDivide (n + 1) a b).remainder.toNat = a.toNat % b.toNat ∧ (engineDivide (n + 1) a b).dz = false

/-- 41_arithmetic.md R134, R138: with an accumulator of N bits restoring division is exact for a divisor if and only if the
divisor is at most 2^(N-1). -/
def Obligations.DivideNarrowIsExactInItsBand : Prop :=
  ∀ (n : Nat) (b : BitVec n), b ≠ 0#n →
    ((∀ a : BitVec n, (engineDivide n a b).quotient.toNat = a.toNat / b.toNat ∧
        (engineDivide n a b).remainder.toNat = a.toNat % b.toNat) ↔
      b.toNat ≤ 2 ^ (n - 1))

/-- 44_alu_dispatch_flags.md R197, R199, R200: Zero, Sign and (odd) Parity of a result of any width. -/
def Obligations.FlagsDescribeTheResult : Prop :=
  ∀ (n : Nat) (r : BitVec n) (c v : Bool),
    ((flagsOf r c v).z = true ↔ ∀ i < n, r.getLsbD i = false) ∧
    (flagsOf r c v).s = r.getLsbD (n - 1) ∧
    ((flagsOf r c v).p = true ↔ setBits r % 2 = 1) ∧
    flagsOf r c v = resultFlags r c v

/-! ### The ALU instructions, in an instance of any width N. `aluDone` is the whole next state: RES, FLAGS, EVT and FAULT as
given, the trace buffer if the instruction is traced, and every other field as before. `operandOf s a` is operand A as an
N-bit vector. -/

/-- 41_arithmetic.md R140: ADD. -/
def Obligations.AddCompletes : Prop :=
  ∀ (s : State) (a b : Operand), ∃ records,
    exec (.aluAdd a (some b)) s =
      .next (aluDone s (operandOf s a + operandOf s b)
        (decide (2 ^ s.params.n ≤ (operandOf s a).toNat + (operandOf s b).toNat))
        (addOverflowLaw s.params.addVMode (operandOf s a) (operandOf s b)) .none records)

/-- 41_arithmetic.md R141: SUB. -/
def Obligations.SubCompletes : Prop :=
  ∀ (s : State) (a b : Operand), ∃ records,
    exec (.aluSub a (some b)) s =
      .next (aluDone s (operandOf s a - operandOf s b)
        (borrowLaw s.params.subBorrowMode (operandOf s a) (operandOf s b))
        (signedOverflow s.params.n ((operandOf s a).toInt - (operandOf s b).toInt)) .none records)

/-- 41_arithmetic.md R142: MUL. -/
def Obligations.MulCompletes : Prop :=
  ∀ (s : State) (a b : Operand), ∃ records,
    exec (.aluMul a (some b)) s =
      .next (aluDone s (operandOf s a * operandOf s b) false
        (decide (2 ^ s.params.n ≤ (operandOf s a).toNat * (operandOf s b).toNat)) .none records)

/-- 41_arithmetic.md R143, R138: DIV by a non-zero divisor. The result is the true quotient where the accumulator is N + 1
bits wide or the divisor at most 2^(N-1); elsewhere it is the output of the restoring loop. -/
def Obligations.DivCompletes : Prop :=
  ∀ (s : State) (a b : Operand), operandOf s b ≠ 0#s.params.n → ∃ q records,
    exec (.aluDiv a (some b)) s = .next (aluDone s q false false .none records) ∧
    q = (engineDivide (accWidth s.params s.params.n) (operandOf s a) (operandOf s b)).quotient ∧
    (s.params.divAccWidth = .wide ∨ (operandOf s b).toNat ≤ 2 ^ (s.params.n - 1) → q = operandOf s a / operandOf s b)

/-- 41_arithmetic.md R144: DIV by zero completes with a zero result, only the Zero flag, the event and its trace record. -/
def Obligations.DivByZeroCompletes : Prop :=
  ∀ (s : State) (a b : Operand), operandOf s b = 0#s.params.n →
    exec (.aluDiv a (some b)) s = .next (aluDone s 0#s.params.n false false .divByZero [.divByZero]) ∧
    (aluDone s 0#s.params.n false false .divByZero [.divByZero]).flags =
      { z := true, c := false, v := false, s := false, p := false } ∧
    ∀ (n m : Nat) (x : BitVec n), engineDivide m x 0#n = { quotient := 0#n, remainder := 0#n, dz := true }

/-- 42_logic.md R170 to R173, 60_exceptions.md R305, 10_state.md R38: AND, OR, XOR, NOT; a traced one leaves one record per
bit, and nothing of the old buffer. That a record holds the gate's two inputs and its output (NOT: its input and output), and
that the buffer holds no further record, are the model's choice (log 8). -/
def Obligations.LogicCompletes : Prop :=
  ∀ (s : State) (a b : Operand),
    exec (.aluAnd a (some b)) s = .next (aluDone s (operandOf s a &&& operandOf s b) false false .none
      (gateTraceLaw (· && ·) (operandOf s a) (operandOf s b))) ∧
    exec (.aluOr a (some b)) s = .next (aluDone s (operandOf s a ||| operandOf s b) false false .none
      (gateTraceLaw (· || ·) (operandOf s a) (operandOf s b))) ∧
    exec (.aluXor a (some b)) s = .next (aluDone s (operandOf s a ^^^ operandOf s b) false false .none
      (gateTraceLaw (· != ·) (operandOf s a) (operandOf s b))) ∧
    exec (.aluNot a) s = .next (aluDone s (~~~operandOf s a) false false .none
      ((List.range s.params.n).map fun i =>
        .gateBit i ((operandOf s a).getLsbD i) none (!((operandOf s a).getLsbD i))))

/-- 43_shift_rotate.md R180 to R183: SHL, SHR, ROL, ROR; Carry is the bit that left. A traced one leaves the record of
60_exceptions.md R305; that the buffer holds no further record is the model's choice (log 8). -/
def Obligations.ShiftsComplete : Prop :=
  ∀ (s : State) (a : Operand) (x : BitVec s.params.n), operandOf s a = x →
    exec (.aluShl a) s =
      .next (aluDone s (x <<< 1) x.msb false .none [.shift ⟨_, x⟩ x.msb ⟨_, x <<< 1⟩]) ∧
    exec (.aluShr a) s =
      .next (aluDone s (x >>> 1) (x.getLsbD 0) false .none [.shift ⟨_, x⟩ (x.getLsbD 0) ⟨_, x >>> 1⟩]) ∧
    exec (.aluRol a) s =
      .next (aluDone s (x.rotateLeft 1) x.msb false .none [.shift ⟨_, x⟩ x.msb ⟨_, x.rotateLeft 1⟩]) ∧
    exec (.aluRor a) s =
      .next (aluDone s (x.rotateRight 1) (x.getLsbD 0) false .none
        [.shift ⟨_, x⟩ (x.getLsbD 0) ⟨_, x.rotateRight 1⟩])

/-- 44_alu_dispatch_flags.md R195: an unassigned opcode completes with a zero result, only the Zero flag, the event, and one
trace record naming the opcode. -/
def Obligations.UnassignedOpcodesCompleteSoftly : Prop :=
  ∀ s : State,
    (∀ row ∈ [(12#4, Instr.aluUnassigned12), (13#4, Instr.aluUnassigned13), (14#4, Instr.aluUnassigned14),
        (15#4, Instr.aluUnassigned15)],
      exec row.2 s = .next (aluDone s 0#s.params.n false false .unknownOpcode [.unknownOpcode row.1])) ∧
    (aluDone s 0#s.params.n false false .unknownOpcode []).flags =
      { z := true, c := false, v := false, s := false, p := false }

/-- 60_exceptions.md R291, R296: a word without VOP or VA takes INVALID_INSTRUCTION, code 0x01, info bit 0 for a missing
opcode and bit 1 for a missing operand A; nothing but FAULT changes (beside the TE port and the host's entry). -/
def Obligations.InvalidWordsFault : Prop :=
  (∀ (s : State) (vop va : Bool), (vop && va) = false → ∃ mask : BitVec 2,
    exec (.aluInvalid vop va) s = .next { s with fault := some (.invalidInstruction mask) } ∧
    mask.getLsbD 0 = !vop ∧ mask.getLsbD 1 = !va ∧ aluFaultCode (.invalidInstruction mask) = 0x01#8) ∧
  (∀ (s : State) (w : InstrWord) (te : Bool) (rest : List HostAction), s.host = .alu w te :: rest →
    w.bits.getLsbD (2 * s.params.n + 6) = false ∨ w.bits.getLsbD (2 * s.params.n + 5) = false → ∃ mask : BitVec 2,
      step s = .next { s with te := te, host := rest, fault := some (.invalidInstruction mask) } ∧
      mask.getLsbD 0 = !(w.bits.getLsbD (2 * s.params.n + 6)) ∧ mask.getLsbD 1 = !(w.bits.getLsbD (2 * s.params.n + 5)))

/-- 60_exceptions.md R292, 30_encoding.md R82: a binary opcode without operand B takes OPERAND_B_MISSING, code 0x02, whose
info is OP; nothing but FAULT changes. -/
def Obligations.MissingOperandBFaults : Prop :=
  ∀ (s : State) (a : Operand),
    (∀ row ∈ [(0#4, Instr.aluAdd), (1#4, Instr.aluSub), (2#4, Instr.aluMul), (3#4, Instr.aluDiv), (4#4, Instr.aluAnd),
        (5#4, Instr.aluOr), (6#4, Instr.aluXor)],
      exec (row.2 a none) s = .next { s with fault := some (.operandBMissing row.1) } ∧
      aluFaultCode (.operandBMissing row.1) = 0x02#8 ∧ aluFaultInfo (.operandBMissing row.1) = row.1.toNat)

/-- 60_exceptions.md R290, R296: an ALU instruction that faults writes FAULT only; a token that faults writes EFAULT and ends
its command, and writes nothing else. -/
def Obligations.FaultsWriteOnlyTheFaultPort : Prop :=
  (∀ (i : Instr) (s t : State), i.isAlu = true → exec i s = .next t → t.fault ≠ none →
    t = { s with fault := t.fault }) ∧
  (∀ (i : Instr) (s t : State) (r : Run), i.isAlu = false → s.run = some r → exec i s = .next t → t.run = none →
    t = { s with efault := t.efault, run := none } ∧ t.efault ≠ none)

/-- 44_alu_dispatch_flags.md R202: what the flags of a completed instruction can be. -/
def Obligations.CompletedFlagFacts : Prop :=
  ∀ (i : Instr) (s t : State), i.isAlu = true → exec i s = .next t → t.fault = none →
    (t.flags.z = true → t.flags.s = false ∧ t.flags.p = false) ∧
    (t.evt ≠ .none → flagsWord t.flags = 0b00001#5) ∧
    (t.flags.c = true → mayCarry i = true) ∧
    (t.flags.v = true → mayOverflow s.params i = true)

/-- 44_alu_dispatch_flags.md R196, R203, 20_memory.md R67: what an instruction completes with depends on the instruction and
the parameters alone, not on any latch. -/
def Obligations.AluReadsNoEarlierResult : Prop :=
  ∀ (i : Instr) (s u : State), i.isAlu = true → s.params = u.params → ∃ t v,
    exec i s = .next t ∧ exec i u = .next v ∧ t.fault = v.fault ∧
    (t.fault = none → t.res = v.res ∧ t.flags = v.flags ∧ t.evt = v.evt)

/-! ### The ALU trace -/

/-- 10_state.md R38, 60_exceptions.md R305: TE decides only what the trace buffer holds, and an untraced or faulting
instruction leaves the buffer. -/
def Obligations.TracingChangesOnlyTheBuffer : Prop :=
  ∀ (i : Instr) (s : State), i.isAlu = true → ∃ t u,
    exec i { s with te := false } = .next t ∧ exec i { s with te := true } = .next u ∧
    u = { t with te := true, trace := u.trace } ∧ t.trace = s.trace ∧ (u.fault ≠ none → u.trace = s.trace)

/-- 60_exceptions.md R305: a traced ADD or SUB records each bit's inputs, carries and sum; SUB the add inside negate first.
That the buffer holds no further record, and the order, are the model's choice (log 8). -/
def Obligations.AdditionTraceHoldsEveryBit : Prop :=
  ∀ (s : State) (a b : Operand) (x y : BitVec s.params.n), s.te = true → operandOf s a = x → operandOf s b = y → ∃ t u,
    exec (.aluAdd a (some b)) s = .next t ∧ t.trace = addTraceLaw x y ∧
    exec (.aluSub a (some b)) s = .next u ∧
      u.trace = addTraceLaw (~~~y) (BitVec.ofNat s.params.n 1) ++ addTraceLaw x (-y)

/-- 60_exceptions.md R305: a traced MUL records per iteration the multiplier bit, the accumulated partial product and the
shifted multiplicand, 2N bits each. That the buffer holds no further record is the model's choice (log 8). -/
def Obligations.MultiplicationTraceHoldsPartialProducts : Prop :=
  ∀ (s : State) (a b : Operand) (x y : BitVec s.params.n), s.te = true → operandOf s a = x → operandOf s b = y → ∃ t,
    exec (.aluMul a (some b)) s = .next t ∧
    t.trace = (List.range s.params.n).map fun i =>
      .mulIteration i (y.getLsbD i) ⟨2 * s.params.n, BitVec.ofNat _ (x.toNat * (y.toNat % 2 ^ (i + 1)))⟩
        ⟨2 * s.params.n, BitVec.ofNat _ (x.toNat * 2 ^ (i + 1))⟩

/-- 60_exceptions.md R305, 41_arithmetic.md R134, 10_state.md R31: a traced DIV by any non-zero divisor records per iteration
`Acc` and `Q` after the shift, `Ap`, and restore or commit, as the loop in plain arithmetic has them, and then the quotient and
the remainder; these are a / b and a mod b where the accumulator is wide or the divisor at most 2^(N-1). That the buffer holds
no further record is the model's choice (log 8). -/
def Obligations.DivisionTraceHoldsTheRemainder : Prop :=
  ∀ (s : State) (a b : Operand) (x y : BitVec s.params.n), s.te = true → operandOf s a = x → operandOf s b = y →
    y ≠ 0#s.params.n → ∃ t,
      exec (.aluDiv a (some b)) s = .next t ∧
      t.trace = divideTraceLaw (accWidth s.params s.params.n) s.params.n x.toNat y.toNat ∧
      (s.params.divAccWidth = .wide ∨ y.toNat ≤ 2 ^ (s.params.n - 1) →
        t.trace.getLast? = some (.divResult ⟨_, x / y⟩ ⟨_, x % y⟩))

/-! ### The two units -/

/-- 10_state.md R44: no unit reads or writes the other's state. Whatever the other unit's state is, an ALU instruction, and a
step of the evaluator's command, do the same in their own part and leave the other's. -/
def Obligations.UnitsShareNoState : Prop :=
  (∀ (i : Instr) (s t u : State), i.isAlu = true → exec i s = .next t →
    exec i (withEvaluatorOf s u) = .next (withEvaluatorOf t u)) ∧
  (∀ s t u : State, evTick s = .next t → evTick (withAluOf s u) = .next (withAluOf t u))

/-- 20_memory.md R69: an ALU instruction and a step of the evaluator can be interleaved either way; the machine reaches the
same state. The grain of the interleaving, one step of the evaluator, and the host's `wait` that gives it, are the model's
choice (log 3). -/
def Obligations.InterleavingOfUnitsDoesNotMatter : Prop :=
  ∀ (s : State) (w : InstrWord) (te : Bool) (rest : List HostAction),
    runSteps 2 { s with host := .wait :: .alu w te :: rest } =
      runSteps 2 { s with host := .alu w te :: .wait :: rest }

/-! ### The evaluator's tokens -/

/-- 46_postfix_machine.md R253, R252, R262: VAR k with room on the stack pushes slot k's bit and TP advances by one; a STEP
appends its record; nothing else changes. -/
def Obligations.VarPushesItsSlot : Prop :=
  ∀ (s : State) (r : Run) (k : BitVec 5), s.run = some r → r.stk.length < s.params.sd →
    exec (.tokVar k) s = .next { s with
      run := some { r with stk := r.asg.getLsbD k.toNat :: r.stk, tp := r.tp + 1 }
      etrace := if r.kind = .step then
          s.etrace ++ [.load r.tp k.toNat (r.asg.getLsbD k.toNat) (r.asg.getLsbD k.toNat :: r.stk).reverse]
        else s.etrace }

/-- 46_postfix_machine.md R254, R255, R252, R262: NOT complements the top; AND, OR and XOR replace the two top values, the
right operand on top, by their gate's result. TP advances by one; a STEP appends the record; nothing else changes. -/
def Obligations.OperatorsApplyTheirGate : Prop :=
  ∀ (s : State) (r : Run) (x y : Bool) (rest : List Bool), s.run = some r →
    (r.stk = x :: rest →
      exec .tokNot s = .next { s with
        run := some { r with stk := (!x) :: rest, tp := r.tp + 1 }
        etrace := if r.kind = .step then s.etrace ++ [.applyNot r.tp x (!x) ((!x) :: rest).reverse] else s.etrace }) ∧
    (r.stk = y :: x :: rest →
      ∀ row ∈ [(Instr.tokAnd, BinOp.and, x && y), (Instr.tokOr, BinOp.or, x || y), (Instr.tokXor, BinOp.xor, x ^^ y)],
        exec row.1 s = .next { s with
          run := some { r with stk := row.2.2 :: rest, tp := r.tp + 1 }
          etrace := if r.kind = .step then
              s.etrace ++ [.apply r.tp row.2.1 x y row.2.2 (row.2.2 :: rest).reverse]
            else s.etrace })

/-- 46_postfix_machine.md R254 to R256, R258, 60_exceptions.md R294, R296: too few operands, a full stack and a reserved
token raise their fault with info TP and end the command; nothing else changes. -/
def Obligations.TokenFaultsEndTheCommand : Prop :=
  ∀ (s : State) (r : Run), s.run = some r →
    (r.stk = [] → exec .tokNot s = .next { s with efault := some (.stackUnderflow r.tp), run := none }) ∧
    (r.stk.length < 2 → ∀ i ∈ [Instr.tokAnd, Instr.tokOr, Instr.tokXor],
      exec i s = .next { s with efault := some (.stackUnderflow r.tp), run := none }) ∧
    (r.stk.length = s.params.sd → ∀ k : BitVec 5,
      exec (.tokVar k) s = .next { s with efault := some (.stackOverflow r.tp), run := none }) ∧
    (∀ t : Token, exec (.tokReserved t) s = .next { s with efault := some (.badToken r.tp), run := none })

/-! ### The evaluator's commands -/

/-- 46_postfix_machine.md R250, R251, 60_exceptions.md R295: what an idle evaluator does with a reserved command, an overlong
program, an EVAL and a STEP. That an overlong STEP leaves ETRACE as it was is the model's reading (log 9); that the host's
entry is taken, log 3. -/
def Obligations.EvalAndStepStart : Prop :=
  ∀ (s : State) (req : EvRequest) (rest : List HostAction) (len : Nat), s.host = .ev req :: rest → s.run = none →
    plenPort s.params req = len →
    (req.cmd = 3#2 → step s = .next { s with host := rest, efault := some (.badCommand 3#2), run := none }) ∧
    (req.cmd = 0#2 ∨ req.cmd = 1#2 → s.params.lmax < len →
      step s = .next { s with host := rest, efault := some (.progTooLong len), run := none }) ∧
    (req.cmd = 0#2 → len ≤ s.params.lmax → len ≤ req.prog.length →
      step s = .next { s with
        host := rest
        run := some { kind := .eval, tm := req.prog.take len, tp := 0, stk := [], asg := req.asgin } }) ∧
    (req.cmd = 1#2 → len ≤ s.params.lmax → len ≤ req.prog.length →
      step s = .next { s with
        host := rest
        etrace := []
        run := some { kind := .step, tm := req.prog.take len, tp := 0, stk := [], asg := req.asgin } })

/-- 46_postfix_machine.md R259, R260, 60_exceptions.md R295: TT checks the variable count before the length; an accepted TT
begins with row 0, whose variables are all 0, and with all rows 0. -/
def Obligations.TableStartChecksInOrder : Prop :=
  ∀ (s : State) (req : EvRequest) (rest : List HostAction) (len : Nat), s.host = .ev req :: rest → s.run = none →
    plenPort s.params req = len → req.cmd = 2#2 →
    (req.nvin = 0#6 → step s = .next { s with host := rest, efault := some .noVariables, run := none }) ∧
    (s.params.ttMaxVars < req.nvin.toNat →
      step s = .next { s with host := rest, efault := some (.ttTooLarge req.nvin.toNat), run := none }) ∧
    (req.nvin ≠ 0#6 → req.nvin.toNat ≤ s.params.ttMaxVars → s.params.lmax < len →
      step s = .next { s with host := rest, efault := some (.progTooLong len), run := none }) ∧
    (req.nvin ≠ 0#6 → req.nvin.toNat ≤ s.params.ttMaxVars → len ≤ s.params.lmax → len ≤ req.prog.length →
      step s = .next { s with
        host := rest
        run := some { kind := .table req.nvin.toNat 0 ⟨2 ^ s.params.ttMaxVars, 0#(2 ^ s.params.ttMaxVars)⟩,
                      tm := req.prog.take len, tp := 0, stk := [], asg := 0#32 } })

/-- 46_postfix_machine.md R260: row `r` gives slot `j < n` the bit `n-1-j` of `r`; the other slots are 0. -/
def Obligations.RowsEnumerateMostSignificantFirst : Prop :=
  ∀ n row j : Nat, n ≤ 32 →
    (rowAssignment n row).getLsbD j = if j < n then decide ((row >>> (n - 1 - j)) % 2 = 1) else false

/-- 46_postfix_machine.md R251, R252, R257: an EVAL of an L-token program ends within L + 2 steps of its being presented,
with the value of the program in OUT and EFAULT = 0, or with its fault in EFAULT and OUT unchanged. Nothing else changes. -/
def Obligations.EvalComputesTheProgramsValue : Prop :=
  ∀ (s : State) (req : EvRequest) (len : Nat), s.host = [.ev req] → s.run = none → req.cmd = 0#2 →
    plenPort s.params req = len → len ≤ s.params.lmax → len ≤ req.prog.length →
    runSteps (len + 2) s = .next
      (match passValue s.params.sd req.asgin (req.prog.take len) with
        | .ok b    => { s with host := [], out := b, efault := none }
        | .error f => { s with host := [], efault := some f })

/-- 46_postfix_machine.md R263: for identical PROG and ASGIN, STEP writes the same OUT and raises the same fault as EVAL. -/
def Obligations.StepEqualsEval : Prop :=
  ∀ (s : State) (req : EvRequest) (len : Nat), s.run = none → plenPort s.params req = len → len ≤ req.prog.length → ∃ t u,
    runSteps (len + 2) { s with host := [.ev { req with cmd := 0#2 }] } = .next t ∧
    runSteps (len + 2) { s with host := [.ev { req with cmd := 1#2 }] } = .next u ∧
    t.run = none ∧ u.run = none ∧ t.out = u.out ∧ t.efault = u.efault

/-- 46_postfix_machine.md R262: a STEP that completes leaves one record per token, in TP order, and a final record with the
output; one that faults leaves the records of the tokens completed before the fault and no final record. -/
def Obligations.StepTraceRecordsEveryToken : Prop :=
  ∀ (s : State) (req : EvRequest) (len : Nat), s.host = [.ev req] → s.run = none → req.cmd = 1#2 →
    plenPort s.params req = len → len ≤ s.params.lmax → len ≤ req.prog.length → ∃ t,
      runSteps (len + 2) s = .next t ∧
      match passValue s.params.sd req.asgin (req.prog.take len) with
      | .ok b =>
        t.etrace.length = len + 1 ∧ t.etrace.getLast? = some (.final b) ∧
        (∀ k < len, t.etrace[k]?.bind recordTp = some k)
      | .error f =>
        (∀ k < t.etrace.length, t.etrace[k]?.bind recordTp = some k) ∧
        t.etrace.length = (match f with
          | .finalDepth _ => len
          | _             => (evFaultInfo f).getD 0)

/-- 46_postfix_machine.md R259, R260, 10_state.md R41: a TT of `n` variables whose passes complete ends within
1 + 2^n (L + 1) steps; row `r` of TTOUT is the value of the program under row `r`'s assignment, and the rows from 2^n on
are 0. Nothing else changes. -/
def Obligations.TableComputesEveryRow : Prop :=
  ∀ (s : State) (req : EvRequest) (len : Nat), s.host = [.ev req] → s.run = none → req.cmd = 2#2 →
    1 ≤ req.nvin.toNat → req.nvin.toNat ≤ s.params.ttMaxVars →
    plenPort s.params req = len → len ≤ s.params.lmax → len ≤ req.prog.length →
    (∃ b, passValue s.params.sd (rowAssignment req.nvin.toNat 0) (req.prog.take len) = .ok b) → ∃ t,
      runSteps (1 + 2 ^ req.nvin.toNat * (len + 1)) s = .next t ∧
      t = { s with host := [], efault := none, ttout := t.ttout } ∧ t.ttout.width = 2 ^ s.params.ttMaxVars ∧
      (∀ row < 2 ^ req.nvin.toNat,
        passValue s.params.sd (rowAssignment req.nvin.toNat row) (req.prog.take len) = .ok (t.ttout.bits.getLsbD row)) ∧
      (∀ row, 2 ^ req.nvin.toNat ≤ row → t.ttout.bits.getLsbD row = false)

/-- 46_postfix_machine.md R261: whether and how a pass faults depends on the tokens only, so a TT whose program faults does
so in row 0, with TTOUT unchanged. -/
def Obligations.FaultsDoNotDependOnValues : Prop :=
  (∀ (sd : Nat) (prog : List Token) (asg asg' : BitVec Config.NV) (f : EvFault),
    passValue sd asg prog = .error f → passValue sd asg' prog = .error f) ∧
  (∀ (s : State) (req : EvRequest) (len : Nat) (f : EvFault), s.host = [.ev req] → s.run = none → req.cmd = 2#2 →
    1 ≤ req.nvin.toNat → req.nvin.toNat ≤ s.params.ttMaxVars →
    plenPort s.params req = len → len ≤ s.params.lmax → len ≤ req.prog.length →
    passValue s.params.sd (rowAssignment req.nvin.toNat 0) (req.prog.take len) = .error f →
      runSteps (len + 2) s = .next { s with host := [], efault := some f })

/-- 46_postfix_machine.md R258: a push onto a stack of any depth SD that is full overflows, and no pass of a program of at
most LMAX ≤ SD tokens ever does. -/
def Obligations.StackNeverOverflows : Prop :=
  (∀ (tp : Nat) (v : Bool) (stk : List Bool), pushValue stk.length tp v stk = .error (.stackOverflow tp)) ∧
  (∀ (p : Params) (asg : BitVec Config.NV) (prog : List Token) (tp : Nat), p.legal = true → prog.length ≤ p.lmax →
    passValue p.sd asg prog ≠ .error (.stackOverflow tp))

/-! ### Every step -/

/-- The invariant `legalState` is kept by every step: the latches have their ports' widths and agree with each other, the
fault ports hold codes and infos that their causes admit (a stack overflow never), and a command in progress keeps
SP ≤ TP ≤ L ≤ LMAX and a legal row. -/
def Obligations.StepKeepsLegalState : Prop :=
  ∀ s t : State, legalState s → step s = .next t → legalState t

/-- 30_encoding.md R88, 60_exceptions.md R290: a step always answers a next state, but for a host that presents fewer tokens
than PLEN (70_reset_and_hazards.md R325; log 11). -/
def Obligations.StepStopsOnlyForABrokenHost : Prop :=
  ∀ s : State, (∃ t, step s = .next t) ∨
    (step s = .refused .programNotSupplied ∧ ∃ req rest, s.host = .ev req :: rest ∧ s.run = none ∧
      req.cmd ≠ 3#2 ∧ plenPort s.params req ≤ s.params.lmax ∧ req.prog.length < plenPort s.params req)

/-- 00_scope.md R9: the reset state is an instance with the values R9 gives this hardware, which are legal, and the port
widths follow from them (10_state.md R30); no step changes the parameters. The host's list loses its first entry or stays
(the model's own, log 3). -/
def Obligations.StepKeepsParameters : Prop :=
  State.reset.params = ⟨8, .zero, .literal, .narrow, 64, 64, 8⟩ ∧ State.reset.params.legal = true ∧
  wordWidth State.reset.params.n = 23 ∧ plenWidth State.reset.params.lmax = 7 ∧
  (∀ lmax, 1 ≤ lmax → ∀ k, lmax + 1 ≤ 2 ^ k ↔ plenWidth lmax ≤ k) ∧
  ∀ s t : State, step s = .next t → t.params = s.params ∧ (t.host = s.host ∨ t.host = s.host.tail)

/-- 70_reset_and_hazards.md R328: every evaluator command in progress ends, within 2^TT_MAX_VARS (LMAX + 1) steps of its
own, whatever the ALU unit does meanwhile (here: nothing). -/
def Obligations.EveryCommandEnds : Prop :=
  ∀ (s : State) (r : Run), s.run = some r → legalRun s.params r → s.host = [] →
    ∃ k t, k ≤ 2 ^ s.params.ttMaxVars * (s.params.lmax + 1) ∧ runSteps k s = .next t ∧ t.run = none

/-! ### The toolchain -/

/-- 30_encoding.md R96, R97: the operand loader refuses negative values, truncates wide ones, and inverts
`binary_to_decimal`; normalisation pads a narrower vector with zeros, and truncates a wider one and sets TRUNC. -/
def Obligations.OperandLoaderKeepsOrTruncates : Prop :=
  (∀ (value : Int) (width : Nat), value < 0 → decimalToBinary value width = .error (.domainError value)) ∧
  (∀ (value width : Nat), ∃ v, decimalToBinary value width = .ok (v, decide (2 ^ width ≤ value)) ∧
    v.toNat = value % 2 ^ width) ∧
  (∀ (n : Nat) (v : BitVec n), decimalToBinary (binaryToDecimal v) n = .ok (v, false)) ∧
  (∀ (m n : Nat) (v : BitVec m),
    (m ≤ n → (normalizeWidth v n).1.toNat = v.toNat ∧ (normalizeWidth v n).2 = false) ∧
    (n < m → (normalizeWidth v n).1.toNat = v.toNat % 2 ^ n ∧ (normalizeWidth v n).2 = true))

/-- 60_exceptions.md R306: in either order the rendered bits without the spaces are the vector's bits in that order, and there
is one space after every four characters but the last group's. -/
def Obligations.FormattedBinaryHoldsTheBits : Prop :=
  ∀ (n : Nat) (v : BitVec n),
    (formatBinary v false).filter (fun c => c != ' ') = (List.range n).map (fun i => if v.getLsbD i then '1' else '0') ∧
    (formatBinary v true).filter (fun c => c != ' ') =
      ((List.range n).map (fun i => if v.getLsbD i then '1' else '0')).reverse ∧
    ∀ msbFirst : Bool,
      (formatBinary v msbFirst).length = n + (n - 1) / 4 ∧
      (∀ i < (formatBinary v msbFirst).length, (formatBinary v msbFirst)[i]? = some ' ' ↔ i % 5 = 4)

/-- 45_expression_assembler.md R221: two texts that differ only in the case of ASCII letters (codes 97 to 122 against 65 to
90) assemble alike. -/
def Obligations.AssemblerFoldsCase : Prop :=
  ∀ (p : Params) (lower upper : List Char),
    List.Forall₂ (fun c d => d = c ∨ (97 ≤ c.toNat ∧ c.toNat ≤ 122 ∧ d.toNat + 32 = c.toNat)) lower upper →
      assemble p lower = assemble p upper

/-- 45_expression_assembler.md R225, R226: a text with a digit, a `~` or any character that is no ASCII letter, separator,
operator symbol or parenthesis is refused. That the separators of R222 are all the whitespace there is, so that a vertical tab
or a form feed is refused too, is the model's choice (log 27). -/
def Obligations.ForeignCharactersAreRefused : Prop :=
  ∀ (p : Params) (text : List Char) (c : Char), c ∈ text → isLetter (foldCase c) = false → isSeparator c = false →
    c ∉ ['&', '|', '^', '!', '(', ')'] → ∃ refusal, assemble p text = .error refusal

/-- 45_expression_assembler.md R232: the names in slot order are exactly the names of the expression, in strictly rising
order of their character codes (so none twice). -/
def Obligations.SlotsAreTheSortedNames : Prop :=
  ∀ items : List PostfixItem,
    (sortedNames items).Pairwise (fun m n => nameBefore m n = true) ∧
    (∀ m n : Name, nameBefore m n = true ↔ (m.map Char.toNat) < (n.map Char.toNat)) ∧
    (∀ n, n ∈ sortedNames items ↔ .name n ∈ items)

/-- 45_expression_assembler.md R232, R233, 30_encoding.md R91: an assembled program fits the machine (at most LMAX tokens, at
most 32 names) and holds listed tokens only, its VAR tokens naming slots that have a name. -/
def Obligations.AssembledProgramsFitTheMachine : Prop :=
  ∀ (p : Params) (text : List Char) (prog : Program), assemble p text = .ok prog →
    prog.tokens.length ≤ p.lmax ∧ prog.names.length ≤ Config.NV ∧
    ∀ t ∈ prog.tokens, tokenListed t = true ∧ (t.toNat < 0x20 → t.toNat < prog.names.length)

/-- 45_expression_assembler.md R235: slot k of ASGIN is the bit assigned to name k, 0 for an unbound name and past the last
name; an assignment that holds a value other than 0 or 1 is refused. That a refusal does not ask whether the expression uses
the name is the model's choice (log 16). -/
def Obligations.AssignmentsDefaultToZero : Prop :=
  ∀ (names : List Name) (assignment : List (Name × Int)), names.length ≤ 32 →
    ((∃ kv ∈ assignment, kv.2 ≠ 0 ∧ kv.2 ≠ 1) → buildAsgin names assignment = .error .badValue) ∧
    ((∀ kv ∈ assignment, kv.2 = 0 ∨ kv.2 = 1) → ∃ asg, buildAsgin names assignment = .ok asg ∧
      (∀ k, names.length ≤ k → asg.getLsbD k = false) ∧
      (∀ k n, names[k]? = some n →
        asg.getLsbD k = decide (assignment.lookup n = some 1)))

/-- 45_expression_assembler.md R231: the source's own examples of a double prefix NOT, on this hardware. -/
def Obligations.DoubleNotDoesNotNest : Prop :=
  assemble Params.hardware "NOT NOT A".toList = .ok { names := [['A']], tokens := [0x80#8, 0x00#8, 0x80#8] } ∧
  (∀ asg, passValue 64 asg [0x80#8, 0x00#8, 0x80#8] = .error (.stackUnderflow 0)) ∧
  assemble Params.hardware "A AND NOT NOT B".toList =
    .ok { names := [['A'], ['B']], tokens := [0x00#8, 0x80#8, 0x01#8, 0x80#8, 0x20#8] } ∧
  (∀ asg : BitVec 32, passValue 64 asg [0x00#8, 0x80#8, 0x01#8, 0x80#8, 0x20#8] =
    .ok (!(asg.getLsbD 0) && !(asg.getLsbD 1))) ∧
  assemble Params.hardware "NOT (NOT A)".toList = .ok { names := [['A']], tokens := [0x00#8, 0x80#8, 0x80#8] } ∧
  (∀ asg : BitVec 32, passValue 64 asg [0x00#8, 0x80#8, 0x80#8] = .ok (asg.getLsbD 0))

/-- 46_postfix_machine.md R264: under legal parameters the program of an accepted, grammatical expression in which no NOT
stands directly before another evaluates to the expression's usual Boolean value, with precedence NOT > AND > OR, XOR, left
association, and unbound names read as 0. -/
def Obligations.AssembledProgramMeansItsExpression : Prop :=
  ∀ (p : Params) (text : List Char) (e : Formula) (prog : Program) (assignment : List (Name × Int))
    (asg : BitVec Config.NV), p.legal = true →
    tokenize text = .ok e.lexemes → e.grammatical = true → assemble p text = .ok prog →
    buildAsgin prog.names assignment = .ok asg →
    passValue p.sd asg prog.tokens = .ok (e.value (assignedBit assignment))
end

