-- ==== Sys2Proof/Laws/Fields.lean ====
section
/-! SUPPORT. The fields of a packed instruction word, for every width N, and of a packed token are the fields it was packed
from. -/

namespace Sys2Proof

section
variable (n : Nat) (vop va vb : Bool) (op : BitVec 4) (a b : BitVec n)

/-- The bits of a packed word, field by field (30_encoding.md R80). -/
theorem getLsbD_packWord (i : Nat) : (packWord n vop va vb op a b).bits.getLsbD i =
    if i < n then b.getLsbD i else if i < 2 * n then a.getLsbD (i - n)
    else if i < 2 * n + 4 then op.getLsbD (i - 2 * n)
    else if i = 2 * n + 4 then vb else if i = 2 * n + 5 then va else if i = 2 * n + 6 then vop else false := by
  simp only [packWord, BitVec.getLsbD_cast, BitVec.getLsbD_append, BitVec.getLsbD_ofBool]
  by_cases h1 : i < n
  · simp [h1]
  by_cases h2 : i < 2 * n
  · simp [h1, h2, show i - n < n by omega]
  by_cases h3 : i < 2 * n + 4
  · simp [h1, h2, h3, show ¬ i - n < n by omega, show i - n - n = i - 2 * n by omega]
    omega
  have e : i - n - n - 4 = i - (2 * n + 4) := by omega
  simp only [h1, h2, h3, show ¬ i - n < n by omega, show ¬ i - n - n < 4 by omega, if_false, e]
  by_cases h4 : i = 2 * n + 4
  · simp [h4]
  by_cases h5 : i = 2 * n + 5
  · simp [h5, show 2 * n + 5 - (2 * n + 4) = 1 by omega]
  by_cases h6 : i = 2 * n + 6
  · simp [h6, show 2 * n + 6 - (2 * n + 4) = 2 by omega]
  · simp [h4, h5, h6, show ¬ i - (2 * n + 4) < 1 by omega, show ¬ i - (2 * n + 4) - 1 < 1 by omega,
      show i - (2 * n + 4) - 1 - 1 ≠ 0 by omega]

@[simp] theorem vopField_packWord : vopField n (packWord n vop va vb op a b).bits = vop := by
  simp only [vopField, getLsbD_packWord]
  simp [show ¬ 2 * n + 6 < n by omega]

@[simp] theorem vaField_packWord : vaField n (packWord n vop va vb op a b).bits = va := by
  simp only [vaField, getLsbD_packWord]
  simp [show ¬ 2 * n + 5 < n by omega]

@[simp] theorem vbField_packWord : vbField n (packWord n vop va vb op a b).bits = vb := by
  simp only [vbField, getLsbD_packWord]
  simp [show ¬ 2 * n + 4 < n by omega]

@[simp] theorem bField_packWord : bField n (packWord n vop va vb op a b).bits = b := by
  apply BitVec.eq_of_getLsbD_eq
  intro i hi
  simp only [bField, BitVec.getLsbD_extractLsb', getLsbD_packWord]
  simp [hi]

@[simp] theorem aField_packWord : aField n (packWord n vop va vb op a b).bits = a := by
  apply BitVec.eq_of_getLsbD_eq
  intro i hi
  simp only [aField, BitVec.getLsbD_extractLsb', getLsbD_packWord]
  simp [hi, show n + i < 2 * n by omega]

@[simp] theorem opField_packWord : opField n (packWord n vop va vb op a b).bits = op := by
  apply BitVec.eq_of_getLsbD_eq
  intro i hi
  simp only [opField, BitVec.getLsbD_extractLsb', getLsbD_packWord]
  simp [hi, show ¬ 2 * n + i < n by omega]

end

/-- A vector that has the field's width is the field (30_encoding.md R97). -/
@[simp] theorem Vec.fit_mk (n : Nat) (v : BitVec n) : Vec.fit n ⟨n, v⟩ = v := by simp [Vec.fit]

/-- The bits of a packed token (30_encoding.md R90). -/
theorem getLsbD_packToken (kind : BitVec 3) (idx : BitVec 5) (i : Nat) :
    (packToken kind idx).getLsbD i = if i < 5 then idx.getLsbD i else kind.getLsbD (i - 5) := by
  show BitVec.getLsbD (w := 3 + 5) (kind ++ idx) i = _
  rw [BitVec.getLsbD_append]

@[simp] theorem kindField_packToken (kind : BitVec 3) (idx : BitVec 5) : kindField (packToken kind idx) = kind := by
  apply BitVec.eq_of_getLsbD_eq
  intro i hi
  simp only [kindField, BitVec.getLsbD_extractLsb', getLsbD_packToken]
  simp [hi]

@[simp] theorem idxField_packToken (kind : BitVec 3) (idx : BitVec 5) : idxField (packToken kind idx) = idx := by
  apply BitVec.eq_of_getLsbD_eq
  intro i hi
  simp only [idxField, BitVec.getLsbD_extractLsb', getLsbD_packToken]
  simp [hi]

end Sys2Proof
end

