-- ==== Sys2Proof/Laws/Gates.lean ====
section
/-! SUPPORT. The gates in Lean's Boolean operations, the adders' truth tables in one line each, and what the two loop
shapes compute. -/

namespace Sys2Proof.Machine

@[simp] theorem gateNot_eq (a : Bool) : gateNot a = !a := rfl
@[simp] theorem gateAnd_eq (a b : Bool) : gateAnd a b = (a && b) := rfl
@[simp] theorem gateOr_eq (a b : Bool) : gateOr a b = (a || b) := rfl
@[simp] theorem gateXor_eq (a b : Bool) : gateXor a b = (a ^^ b) := by cases a <;> cases b <;> rfl
@[simp] theorem gateNand_eq (a b : Bool) : gateNand a b = !(a && b) := rfl
@[simp] theorem gateNor_eq (a b : Bool) : gateNor a b = !(a || b) := rfl
@[simp] theorem gateXnor_eq (a b : Bool) : gateXnor a b = (a == b) := by cases a <;> cases b <;> rfl

@[simp] theorem halfAdder_eq (a b : Bool) : halfAdder a b = (a ^^ b, a && b) := by cases a <;> cases b <;> rfl

/-- 40_gates_circuits.md R113: the sum bit is the parity, the carry is the majority. -/
@[simp] theorem fullAdder_eq (a b c : Bool) : fullAdder a b c = (a ^^ b ^^ c, a && b || a && c || b && c) := by
  cases a <;> cases b <;> cases c <;> rfl

@[simp] theorem mux_eq (sel d0 d1 : Bool) : mux sel d0 d1 = if sel then d1 else d0 := by
  cases sel <;> cases d0 <;> cases d1 <;> rfl

/-- A vector built by the loop has the bits the loop wrote. -/
@[simp] theorem getLsbD_tabulate (f : Nat → Bool) (n i : Nat) :
    (tabulate f n).getLsbD i = (decide (i < n) && f i) := by
  induction n with
  | zero => simp [tabulate]
  | succ n ih =>
    simp only [tabulate, BitVec.getLsbD_cons, ih]
    by_cases h : i = n
    · subst h; simp
    · by_cases h' : i < n <;> simp [h, h'] <;> omega

@[simp] theorem chain_zero (g : Bool → Nat → Bool) (x : Bool) : chain g x 0 = x := rfl

@[simp] theorem chain_succ (g : Bool → Nat → Bool) (x : Bool) (n : Nat) :
    chain g x (n + 1) = g (chain g x n) n := rfl

end Sys2Proof.Machine
end

