-- ==== Sys2Proof/Laws/State.lean ====
section
/-! SUPPORT. One lemma per field for each shared update of the state, so that no proof unfolds a record update. -/

namespace Sys2Proof.Machine

/-! ### aluCommit -/

section
variable {n : Nat} (o : PathOut n) (records : List AluRecord) (s : State)

@[simp] theorem aluCommit_res : (aluCommit o records s).res = ⟨n, o.result⟩ := rfl
@[simp] theorem aluCommit_flags : (aluCommit o records s).flags = flagsOf o.result o.cflag o.vflag := rfl
@[simp] theorem aluCommit_evt : (aluCommit o records s).evt = o.event := rfl
@[simp] theorem aluCommit_fault : (aluCommit o records s).fault = none := rfl
@[simp] theorem aluCommit_te : (aluCommit o records s).te = s.te := rfl
@[simp] theorem aluCommit_trace : (aluCommit o records s).trace = if s.te then records else s.trace := rfl
@[simp] theorem aluCommit_out : (aluCommit o records s).out = s.out := rfl
@[simp] theorem aluCommit_ttout : (aluCommit o records s).ttout = s.ttout := rfl
@[simp] theorem aluCommit_efault : (aluCommit o records s).efault = s.efault := rfl
@[simp] theorem aluCommit_etrace : (aluCommit o records s).etrace = s.etrace := rfl
@[simp] theorem aluCommit_run : (aluCommit o records s).run = s.run := rfl
@[simp] theorem aluCommit_host : (aluCommit o records s).host = s.host := rfl
@[simp] theorem aluCommit_params : (aluCommit o records s).params = s.params := rfl

end

/-! ### aluRaise -/

section
variable (f : AluFault) (s : State)

@[simp] theorem aluRaise_res : (aluRaise f s).res = s.res := rfl
@[simp] theorem aluRaise_flags : (aluRaise f s).flags = s.flags := rfl
@[simp] theorem aluRaise_evt : (aluRaise f s).evt = s.evt := rfl
@[simp] theorem aluRaise_fault : (aluRaise f s).fault = some f := rfl
@[simp] theorem aluRaise_te : (aluRaise f s).te = s.te := rfl
@[simp] theorem aluRaise_trace : (aluRaise f s).trace = s.trace := rfl
@[simp] theorem aluRaise_out : (aluRaise f s).out = s.out := rfl
@[simp] theorem aluRaise_ttout : (aluRaise f s).ttout = s.ttout := rfl
@[simp] theorem aluRaise_efault : (aluRaise f s).efault = s.efault := rfl
@[simp] theorem aluRaise_etrace : (aluRaise f s).etrace = s.etrace := rfl
@[simp] theorem aluRaise_run : (aluRaise f s).run = s.run := rfl
@[simp] theorem aluRaise_host : (aluRaise f s).host = s.host := rfl
@[simp] theorem aluRaise_params : (aluRaise f s).params = s.params := rfl

end

/-! ### evRaise -/

section
variable (f : EvFault) (s : State)

@[simp] theorem evRaise_res : (evRaise f s).res = s.res := rfl
@[simp] theorem evRaise_flags : (evRaise f s).flags = s.flags := rfl
@[simp] theorem evRaise_evt : (evRaise f s).evt = s.evt := rfl
@[simp] theorem evRaise_fault : (evRaise f s).fault = s.fault := rfl
@[simp] theorem evRaise_te : (evRaise f s).te = s.te := rfl
@[simp] theorem evRaise_trace : (evRaise f s).trace = s.trace := rfl
@[simp] theorem evRaise_out : (evRaise f s).out = s.out := rfl
@[simp] theorem evRaise_ttout : (evRaise f s).ttout = s.ttout := rfl
@[simp] theorem evRaise_efault : (evRaise f s).efault = some f := rfl
@[simp] theorem evRaise_etrace : (evRaise f s).etrace = s.etrace := rfl
@[simp] theorem evRaise_run : (evRaise f s).run = none := rfl
@[simp] theorem evRaise_host : (evRaise f s).host = s.host := rfl
@[simp] theorem evRaise_params : (evRaise f s).params = s.params := rfl

end

/-! ### tokenDone -/

section
variable (r : Run) (stk : List Bool) (record : StepRecord) (s : State)

@[simp] theorem tokenDone_res : (tokenDone r stk record s).res = s.res := rfl
@[simp] theorem tokenDone_flags : (tokenDone r stk record s).flags = s.flags := rfl
@[simp] theorem tokenDone_evt : (tokenDone r stk record s).evt = s.evt := rfl
@[simp] theorem tokenDone_fault : (tokenDone r stk record s).fault = s.fault := rfl
@[simp] theorem tokenDone_te : (tokenDone r stk record s).te = s.te := rfl
@[simp] theorem tokenDone_trace : (tokenDone r stk record s).trace = s.trace := rfl
@[simp] theorem tokenDone_out : (tokenDone r stk record s).out = s.out := rfl
@[simp] theorem tokenDone_ttout : (tokenDone r stk record s).ttout = s.ttout := rfl
@[simp] theorem tokenDone_efault : (tokenDone r stk record s).efault = s.efault := rfl
@[simp] theorem tokenDone_etrace : (tokenDone r stk record s).etrace = if r.kind = .step then s.etrace ++ [record] else s.etrace := rfl
@[simp] theorem tokenDone_run : (tokenDone r stk record s).run = some { r with stk := stk, tp := r.tp + 1 } := rfl
@[simp] theorem tokenDone_host : (tokenDone r stk record s).host = s.host := rfl
@[simp] theorem tokenDone_params : (tokenDone r stk record s).params = s.params := rfl

end

/-! ### completeEval -/

section
variable (b : Bool) (s : State)

@[simp] theorem completeEval_res : (completeEval b s).res = s.res := rfl
@[simp] theorem completeEval_flags : (completeEval b s).flags = s.flags := rfl
@[simp] theorem completeEval_evt : (completeEval b s).evt = s.evt := rfl
@[simp] theorem completeEval_fault : (completeEval b s).fault = s.fault := rfl
@[simp] theorem completeEval_te : (completeEval b s).te = s.te := rfl
@[simp] theorem completeEval_trace : (completeEval b s).trace = s.trace := rfl
@[simp] theorem completeEval_out : (completeEval b s).out = b := rfl
@[simp] theorem completeEval_ttout : (completeEval b s).ttout = s.ttout := rfl
@[simp] theorem completeEval_efault : (completeEval b s).efault = none := rfl
@[simp] theorem completeEval_etrace : (completeEval b s).etrace = s.etrace := rfl
@[simp] theorem completeEval_run : (completeEval b s).run = none := rfl
@[simp] theorem completeEval_host : (completeEval b s).host = s.host := rfl
@[simp] theorem completeEval_params : (completeEval b s).params = s.params := rfl

end

/-! ### completeTable -/

section
variable (rows : Vec) (s : State)

@[simp] theorem completeTable_res : (completeTable rows s).res = s.res := rfl
@[simp] theorem completeTable_flags : (completeTable rows s).flags = s.flags := rfl
@[simp] theorem completeTable_evt : (completeTable rows s).evt = s.evt := rfl
@[simp] theorem completeTable_fault : (completeTable rows s).fault = s.fault := rfl
@[simp] theorem completeTable_te : (completeTable rows s).te = s.te := rfl
@[simp] theorem completeTable_trace : (completeTable rows s).trace = s.trace := rfl
@[simp] theorem completeTable_out : (completeTable rows s).out = s.out := rfl
@[simp] theorem completeTable_ttout : (completeTable rows s).ttout = rows := rfl
@[simp] theorem completeTable_efault : (completeTable rows s).efault = none := rfl
@[simp] theorem completeTable_etrace : (completeTable rows s).etrace = s.etrace := rfl
@[simp] theorem completeTable_run : (completeTable rows s).run = none := rfl
@[simp] theorem completeTable_host : (completeTable rows s).host = s.host := rfl
@[simp] theorem completeTable_params : (completeTable rows s).params = s.params := rfl

end

/-! ### resetEvent -/

section
variable (s : State)

@[simp] theorem resetEvent_res : (resetEvent s).res = ⟨s.params.n, 0#s.params.n⟩ := rfl
@[simp] theorem resetEvent_flags : (resetEvent s).flags = Flags.zero := rfl
@[simp] theorem resetEvent_evt : (resetEvent s).evt = .none := rfl
@[simp] theorem resetEvent_fault : (resetEvent s).fault = none := rfl
@[simp] theorem resetEvent_te : (resetEvent s).te = s.te := rfl
@[simp] theorem resetEvent_trace : (resetEvent s).trace = [] := rfl
@[simp] theorem resetEvent_out : (resetEvent s).out = false := rfl
@[simp] theorem resetEvent_ttout :
    (resetEvent s).ttout = ⟨2 ^ s.params.ttMaxVars, 0#(2 ^ s.params.ttMaxVars)⟩ := rfl
@[simp] theorem resetEvent_efault : (resetEvent s).efault = none := rfl
@[simp] theorem resetEvent_etrace : (resetEvent s).etrace = [] := rfl
@[simp] theorem resetEvent_run : (resetEvent s).run = none := rfl
@[simp] theorem resetEvent_host : (resetEvent s).host = s.host := rfl
@[simp] theorem resetEvent_params : (resetEvent s).params = s.params := rfl

end

end Sys2Proof.Machine
end

