-- ==== Sys2Proof/Laws/Ops.lean ====
section
/-! SUPPORT. For each shared operation, and for each unit's instructions together, one lemma that says everything it can
do. -/

namespace Sys2Proof.Machine

/-! ### The ALU unit -/

theorem withOperandB_next {op : BitVec 4} {b : Option Operand} {s t : State} {k : BitVec s.params.n → State} :
    withOperandB op b s k = .next t ↔
      (∃ x, b = some x ∧ t = k (operandOf s x)) ∨ (b = none ∧ t = aluRaise (.operandBMissing op) s) := by
  cases b <;> simp [withOperandB, eq_comm]

/-- What a binary opcode can do, in the form every ALU instruction has. -/
theorem withOperandB_cases (op : BitVec 4) (b : Option Operand) (s : State) {n : Nat} (o : BitVec s.params.n → PathOut n)
    (records : BitVec s.params.n → List AluRecord) :
    (∃ f, withOperandB op b s (fun b => aluCommit (o b) (records b) s) = .next (aluRaise f s)) ∨
      (∃ o' : PathOut n, ∃ records', withOperandB op b s (fun b => aluCommit (o b) (records b) s) =
        .next (aluCommit o' records' s)) := by
  cases b with
  | none => exact .inl ⟨_, rfl⟩
  | some b => exact .inr ⟨_, _, rfl⟩

/-- An ALU instruction commits the outputs of a path of the instance's width or raises, and does nothing else. -/
theorem exec_alu_cases {i : Instr} (h : i.isAlu = true) (s : State) :
    (∃ f, exec i s = .next (aluRaise f s)) ∨
      (∃ o : PathOut s.params.n, ∃ records, exec i s = .next (aluCommit o records s)) := by
  cases i with
  | aluAdd a b => exact withOperandB_cases _ b s _ _
  | aluSub a b => exact withOperandB_cases _ b s _ _
  | aluMul a b => exact withOperandB_cases _ b s _ _
  | aluDiv a b => exact withOperandB_cases _ b s _ _
  | aluAnd a b => exact withOperandB_cases _ b s _ _
  | aluOr a b => exact withOperandB_cases _ b s _ _
  | aluXor a b => exact withOperandB_cases _ b s _ _
  | aluInvalid vop va => exact .inl ⟨_, rfl⟩
  | aluNot a => exact .inr ⟨_, _, rfl⟩
  | aluShl a => exact .inr ⟨_, _, rfl⟩
  | aluShr a => exact .inr ⟨_, _, rfl⟩
  | aluRol a => exact .inr ⟨_, _, rfl⟩
  | aluRor a => exact .inr ⟨_, _, rfl⟩
  | aluUnassigned12 => exact .inr ⟨_, _, rfl⟩
  | aluUnassigned13 => exact .inr ⟨_, _, rfl⟩
  | aluUnassigned14 => exact .inr ⟨_, _, rfl⟩
  | aluUnassigned15 => exact .inr ⟨_, _, rfl⟩
  | tokVar k => cases h
  | tokAnd => cases h
  | tokOr => cases h
  | tokXor => cases h
  | tokNot => cases h
  | tokReserved t => cases h

/-- An operand of the instance's own width is the field itself (30_encoding.md R83). -/
@[simp] theorem operandOf_mk (s : State) (a : BitVec s.params.n) : operandOf s ⟨s.params.n, a⟩ = a := by
  simp [operandOf, Vec.fit]

/-! ### The evaluator unit -/

theorem inPass_next {s t : State} {k : Run → State} :
    inPass s k = .next t ↔ ∃ r, s.run = some r ∧ t = k r := by
  cases h : s.run <;> simp [inPass, h, eq_comm]

theorem runToken_cases (s : State) (r : Run) (effect : Except EvFault (List Bool × StepRecord)) :
    (∃ stk record, effect = .ok (stk, record) ∧ runToken s r effect = tokenDone r stk record s) ∨
      (∃ f, effect = .error f ∧ runToken s r effect = evRaise f s) := by
  rcases effect with f | ⟨stk, record⟩
  · exact .inr ⟨f, rfl, rfl⟩
  · exact .inl ⟨stk, record, rfl, rfl⟩

/-- A token of the command in progress is executed or raises, and does nothing else. -/
theorem exec_token_cases {i : Instr} (h : i.isAlu = false) {s : State} {r : Run} (hr : s.run = some r) :
    (∃ stk record, exec i s = .next (tokenDone r stk record s)) ∨ (∃ f, exec i s = .next (evRaise f s)) := by
  have key : ∀ effect : Except EvFault (List Bool × StepRecord), ∀ o,
      o = Host.Outcome.next (ρ := Refusal) (φ := Fault) (runToken s r effect) →
      (∃ stk record, o = .next (tokenDone r stk record s)) ∨ (∃ f, o = .next (evRaise f s)) := by
    intro effect o ho
    rcases runToken_cases s r effect with ⟨stk, record, -, he⟩ | ⟨f, -, he⟩
    · exact .inl ⟨stk, record, by rw [ho, he]⟩
    · exact .inr ⟨f, by rw [ho, he]⟩
  cases i with
  | tokVar k => exact key (varEffect s.params.sd r k) _ (by simp [exec, execTokVar, inPass, hr])
  | tokAnd => exact key (binEffect .and r) _ (by simp [exec, execTokAnd, inPass, hr])
  | tokOr => exact key (binEffect .or r) _ (by simp [exec, execTokOr, inPass, hr])
  | tokXor => exact key (binEffect .xor r) _ (by simp [exec, execTokXor, inPass, hr])
  | tokNot => exact key (notEffect r) _ (by simp [exec, execTokNot, inPass, hr])
  | tokReserved t => exact key (.error (.badToken r.tp)) _ (by simp [exec, execTokReserved, inPass, hr])
  | _ => cases h

theorem pushValue_ok {sd tp : Nat} {v : Bool} {stk stk' : List Bool} :
    pushValue sd tp v stk = .ok stk' ↔ stk.length < sd ∧ stk' = v :: stk := by
  by_cases h : sd ≤ stk.length
  · simp [pushValue, h]
  · simp [pushValue, h, eq_comm]
    omega

theorem popOne_ok {tp : Nat} {stk rest : List Bool} {v : Bool} :
    popOne tp stk = .ok (v, rest) ↔ stk = v :: rest := by
  rcases stk with _ | ⟨x, xs⟩ <;> simp [popOne]

theorem popTwo_ok {tp : Nat} {stk rest : List Bool} {l r : Bool} :
    popTwo tp stk = .ok (l, r, rest) ↔ stk = r :: l :: rest := by
  rcases stk with _ | ⟨x, _ | ⟨y, ys⟩⟩ <;> simp [popTwo]
  tauto

theorem popOne_error {tp : Nat} {stk : List Bool} {f : EvFault} :
    popOne tp stk = .error f ↔ stk = [] ∧ f = .stackUnderflow tp := by
  rcases stk with _ | ⟨x, xs⟩ <;> simp [popOne, eq_comm]

theorem popTwo_error {tp : Nat} {stk : List Bool} {f : EvFault} :
    popTwo tp stk = .error f ↔ stk.length < 2 ∧ f = .stackUnderflow tp := by
  rcases stk with _ | ⟨x, _ | ⟨y, ys⟩⟩ <;> simp [popTwo, eq_comm]

/-! ### Commands -/

/-- The PLEN port shows every length up to LMAX as it is (10_state.md R30). -/
theorem plenPort_of_le {p : Params} {req : EvRequest} (h : req.plen ≤ p.lmax) : plenPort p req = req.plen :=
  Nat.mod_eq_of_lt (lt_of_le_of_lt h Nat.lt_log2_self)


/-- The program check turns the command away, or the program is copied. -/
theorem loadProgram_cases (req : EvRequest) (s : State) (k : List Token → State) :
    (s.params.lmax < plenPort s.params req ∧
        loadProgram req s k = .next (evRaise (.progTooLong (plenPort s.params req)) s)) ∨
      (plenPort s.params req ≤ s.params.lmax ∧ req.prog.length < plenPort s.params req ∧
        loadProgram req s k = .refused .programNotSupplied) ∨
      (plenPort s.params req ≤ s.params.lmax ∧ plenPort s.params req ≤ req.prog.length ∧
        loadProgram req s k = .next (k (req.prog.take (plenPort s.params req)))) := by
  unfold loadProgram
  split
  · exact .inl ⟨‹_›, rfl⟩
  · split
    · exact .inr (.inl ⟨by omega, ‹_›, rfl⟩)
    · exact .inr (.inr ⟨by omega, by omega, rfl⟩)

/-- A pass with one value left finishes; any other depth is EV_FINAL_DEPTH. -/
theorem evFinish_cases (r : Run) (s : State) :
    (∃ b, r.stk = [b] ∧ evFinish r s = finishPass r b s) ∨
      (r.stk.length ≠ 1 ∧ evFinish r s = evRaise (.finalDepth r.stk.length) s) := by
  rcases h : r.stk with _ | ⟨x, _ | ⟨y, ys⟩⟩
  · exact .inr ⟨by simp, by simp [evFinish, h]⟩
  · exact .inl ⟨x, rfl, by simp [evFinish, h]⟩
  · exact .inr ⟨by simp, by simp [evFinish, h]⟩

/-- Which command CMD selects. -/
theorem evStart_cases (req : EvRequest) (s : State) :
    (req.cmd = 0#2 ∧ evStart req s = startEval req s) ∨ (req.cmd = 1#2 ∧ evStart req s = startStep req s) ∨
      (req.cmd = 2#2 ∧ evStart req s = startTable req s) ∨
      (req.cmd = 3#2 ∧ evStart req s = .next (evRaise (.badCommand req.cmd) s)) := by
  have h : ∀ c : BitVec 2, c = 0#2 ∨ c = 1#2 ∨ c = 2#2 ∨ c = 3#2 := by decide
  rcases h req.cmd with h | h | h | h <;> simp [evStart, h]

/-- What a step does, by what the host presents and whether the evaluator works. -/
theorem step_cases (s : State) :
    (∃ w te rest, s.host = .alu w te :: rest ∧ step s = issueAlu w te rest s) ∨
      (∃ rest, s.host = .wait :: rest ∧ step s = evTick { s with host := rest }) ∨
      (s.host = [] ∧ step s = evTick s) ∨
      (∃ req rest, s.host = .ev req :: rest ∧ s.run = none ∧ step s = evStart req { s with host := rest }) ∨
      (∃ rest, s.host = .reset :: rest ∧ s.run = none ∧ step s = .next (resetEvent { s with host := rest })) ∨
      (∃ r, s.run = some r ∧ ((∃ req rest, s.host = .ev req :: rest) ∨ (∃ rest, s.host = .reset :: rest)) ∧
        step s = evAdvance r s) := by
  rcases hh : s.host with _ | ⟨⟨w, te⟩ | ⟨req⟩ | _ | _, rest⟩
  · exact .inr (.inr (.inl ⟨rfl, by simp [step, machineStep, hh]⟩))
  · exact .inl ⟨w, te, rest, rfl, by simp [step, machineStep, hh]⟩
  · rcases hr : s.run with _ | r
    · exact .inr (.inr (.inr (.inl ⟨req, rest, rfl, rfl, by simp [step, machineStep, hh, hr]⟩)))
    · exact .inr (.inr (.inr (.inr (.inr ⟨r, rfl, .inl ⟨req, rest, rfl⟩, by simp [step, machineStep, hh, hr]⟩))))
  · rcases hr : s.run with _ | r
    · exact .inr (.inr (.inr (.inr (.inl ⟨rest, rfl, rfl, by simp [step, machineStep, hh, hr]⟩))))
    · exact .inr (.inr (.inr (.inr (.inr ⟨r, rfl, .inr ⟨rest, rfl⟩, by simp [step, machineStep, hh, hr]⟩))))
  · exact .inr (.inl ⟨rest, rfl, by simp [step, machineStep, hh]⟩)

end Sys2Proof.Machine
end

