-- ==== Sys2Proof/Laws/PerInstr.lean ====
section
/-! SUPPORT. Every instruction's encoding, at every width N, lies in its own row of spec/opcode_table.json: the word or
token the encoder writes has the row's fixed bits (30_encoding.md R85, R91). VB is masked out, as it is for the unary rows, so that a binary
instruction without operand B is covered too. -/

namespace Sys2Proof.Laws

/-- At every width N the instruction is encoded by a word of the ALU row `op`: W bits, VOP = VA = 1 and the OP field. -/
def inAluRow (op : BitVec 4) (i : Instr) : Prop :=
  ∀ n, ∃ w, encode n i = .word w ∧ w.width = wordWidth n ∧
    vopField n w.bits = true ∧ vaField n w.bits = true ∧ opField n w.bits = op

/-- The instruction is encoded by the token with these KIND and IDX fields. -/
def inTokenRow (kind : BitVec 3) (idx : BitVec 5) (i : Instr) : Prop :=
  ∀ n, ∃ t, encode n i = .token t ∧ kindField t = kind ∧ idxField t = idx

theorem binary_row {op : BitVec 4} {a : Operand} {b : Option Operand} {i : Instr}
    (h : ∀ n, encode n i = .word (packBinary n op a b)) : inAluRow op i := fun n =>
  ⟨_, h n, rfl, by simp [packBinary]⟩

theorem unary_row {op : BitVec 4} {a : Operand} {i : Instr} (h : ∀ n, encode n i = .word (packUnary n op a)) :
    inAluRow op i := fun n => ⟨_, h n, rfl, by simp [packUnary]⟩

theorem unassigned_row {op : BitVec 4} {i : Instr} (h : ∀ n, encode n i = .word (packUnassigned n op)) :
    inAluRow op i := fun n => ⟨_, h n, rfl, by simp [packUnassigned]⟩

theorem token_row {kind : BitVec 3} {idx : BitVec 5} {i : Instr} (h : ∀ n, encode n i = .token (packToken kind idx)) :
    inTokenRow kind idx i := fun n => ⟨_, h n, by simp⟩

namespace EncodeLiesInRow

/-- The encoding of a well-formed instruction lies in the instruction's row of the opcode table. -/
def Statement : Instr → Prop
  | .aluAdd a b      => inAluRow 0#4 (.aluAdd a b)
  | .aluSub a b      => inAluRow 1#4 (.aluSub a b)
  | .aluMul a b      => inAluRow 2#4 (.aluMul a b)
  | .aluDiv a b      => inAluRow 3#4 (.aluDiv a b)
  | .aluAnd a b      => inAluRow 4#4 (.aluAnd a b)
  | .aluOr a b       => inAluRow 5#4 (.aluOr a b)
  | .aluXor a b      => inAluRow 6#4 (.aluXor a b)
  | .aluNot a        => inAluRow 7#4 (.aluNot a)
  | .aluShl a        => inAluRow 8#4 (.aluShl a)
  | .aluShr a        => inAluRow 9#4 (.aluShr a)
  | .aluRol a        => inAluRow 10#4 (.aluRol a)
  | .aluRor a        => inAluRow 11#4 (.aluRor a)
  | .aluUnassigned12 => inAluRow 12#4 .aluUnassigned12
  | .aluUnassigned13 => inAluRow 13#4 .aluUnassigned13
  | .aluUnassigned14 => inAluRow 14#4 .aluUnassigned14
  | .aluUnassigned15 => inAluRow 15#4 .aluUnassigned15
  | .aluInvalid vop va =>
    ∀ n, (Instr.aluInvalid vop va).wf n = true →
      ∃ w, encode n (.aluInvalid vop va) = .word w ∧ (vopField n w.bits && vaField n w.bits) = false
  | .tokVar k        => inTokenRow 0#3 k (.tokVar k)
  | .tokAnd          => inTokenRow 1#3 0#5 .tokAnd
  | .tokOr           => inTokenRow 2#3 0#5 .tokOr
  | .tokXor          => inTokenRow 3#3 0#5 .tokXor
  | .tokNot          => inTokenRow 4#3 0#5 .tokNot
  | .tokReserved t   =>
    ∀ n, (Instr.tokReserved t).wf n = true → ∃ u, encode n (.tokReserved t) = .token u ∧ tokenListed u = false

theorem aluAdd (a : Operand) (b : Option Operand) : Statement (.aluAdd a b) := binary_row fun _ => rfl
theorem aluSub (a : Operand) (b : Option Operand) : Statement (.aluSub a b) := binary_row fun _ => rfl
theorem aluMul (a : Operand) (b : Option Operand) : Statement (.aluMul a b) := binary_row fun _ => rfl
theorem aluDiv (a : Operand) (b : Option Operand) : Statement (.aluDiv a b) := binary_row fun _ => rfl
theorem aluAnd (a : Operand) (b : Option Operand) : Statement (.aluAnd a b) := binary_row fun _ => rfl
theorem aluOr (a : Operand) (b : Option Operand) : Statement (.aluOr a b) := binary_row fun _ => rfl
theorem aluXor (a : Operand) (b : Option Operand) : Statement (.aluXor a b) := binary_row fun _ => rfl
theorem aluNot (a : Operand) : Statement (.aluNot a) := unary_row fun _ => rfl
theorem aluShl (a : Operand) : Statement (.aluShl a) := unary_row fun _ => rfl
theorem aluShr (a : Operand) : Statement (.aluShr a) := unary_row fun _ => rfl
theorem aluRol (a : Operand) : Statement (.aluRol a) := unary_row fun _ => rfl
theorem aluRor (a : Operand) : Statement (.aluRor a) := unary_row fun _ => rfl
theorem aluUnassigned12 : Statement .aluUnassigned12 := unassigned_row fun _ => rfl
theorem aluUnassigned13 : Statement .aluUnassigned13 := unassigned_row fun _ => rfl
theorem aluUnassigned14 : Statement .aluUnassigned14 := unassigned_row fun _ => rfl
theorem aluUnassigned15 : Statement .aluUnassigned15 := unassigned_row fun _ => rfl
theorem aluInvalid (vop va : Bool) : Statement (.aluInvalid vop va) := fun _ h =>
  ⟨_, rfl, by revert h; cases vop <;> cases va <;> simp [Instr.wf]⟩
theorem tokVar (k : BitVec 5) : Statement (.tokVar k) := token_row fun _ => rfl
theorem tokAnd : Statement .tokAnd := token_row fun _ => rfl
theorem tokOr : Statement .tokOr := token_row fun _ => rfl
theorem tokXor : Statement .tokXor := token_row fun _ => rfl
theorem tokNot : Statement .tokNot := token_row fun _ => rfl
theorem tokReserved (t : Token) : Statement (.tokReserved t) := fun _ h => ⟨t, rfl, by simpa [Instr.wf] using h⟩

end EncodeLiesInRow

end Sys2Proof.Laws
end

