-- ==== Sys2Proof/Tests/Slice0.lean ====
section
/-! SUPPORT. The model's own tests, on fixed values: ill-formed terms are refused, a word of every row decodes, one or two
vectors of spec/95_test_vectors.md per instruction, and, for every statement with hypotheses, a state and operands that meet
them. Expected values are the spec's (the section of 95_test_vectors.md stands beside each group). -/

set_option maxRecDepth 100000

namespace Sys2Proof.Tests

open Sys2Proof Sys2Proof.Machine

/-! ### Helpers -/

/-- The next state, if there is one. -/
def nextOf (o : Host.Outcome State Fault Refusal) : Option State :=
  match o with
  | .next s => some s
  | .fault _ | .refused _ => none

/-- The state after presenting one word to a freshly reset instance. -/
def afterWord (w : BitVec 23) (p : Params := Params.hardware) : Option State :=
  nextOf (step { State.reset with host := [.alu ⟨23, w⟩ false], params := p })

/-- RES, FLAGS (as the port shows them), EVT code, FAULT code after one word. -/
def ports (w : BitVec 23) (p : Params := Params.hardware) : Option (Nat × Nat × Nat × Nat) :=
  (afterWord w p).map fun s =>
    (s.res.bits.toNat, (flagsWord s.flags).toNat, (eventCode s.evt).toNat, (faultPort s).toNat)

/-- A command in progress. -/
def aRun (kind : PassKind) (tm : List Token) (tp : Nat) (stk : List Bool) : Run :=
  { kind := kind, tm := tm, tp := tp, stk := stk, asg := 0b101#32 }

/-- A freshly reset instance with a command in progress. -/
def running (kind : PassKind) (tm : List Token) (tp : Nat) (stk : List Bool) : State :=
  { State.reset with run := some (aRun kind tm tp stk) }

/-- A request. -/
def aReq (cmd : BitVec 2) (prog : List Token) (asgin : BitVec 32) (nvin : BitVec 6) : EvRequest :=
  { cmd := cmd, prog := prog, plen := prog.length, asgin := asgin, nvin := nvin }

/-- A freshly reset instance whose host presents one request. -/
def asked (req : EvRequest) : State := { State.reset with host := [.ev req] }

/-! ### WellFormed refuses ill-formed terms -/

theorem test_wf_refuses_complete_invalid : (Instr.aluInvalid true true).wf 8 = false := by decide
theorem test_wf_refuses_other_width : (Instr.aluNot ⟨4, 5#4⟩).wf 8 = false ∧
    (Instr.aluAdd ⟨8, 5#8⟩ (some ⟨9, 5#9⟩)).wf 8 = false := by decide
theorem test_wf_refuses_listed_reserved : (Instr.tokReserved 0x20#8).wf 8 = false := by decide

/-! ### Decoding, one word per row (30_encoding.md R80, R84, R91) -/

theorem test_decode_add : decodeWord 8 0b11100000000111100000111#23 = .aluAdd ⟨8, 15#8⟩ (some ⟨8, 7#8⟩) := by decide
theorem test_decode_sub : decodeWord 8 0b11100010000010100000011#23 = .aluSub ⟨8, 5#8⟩ (some ⟨8, 3#8⟩) := by decide
theorem test_decode_mul : decodeWord 8 0b11100101111111110000001#23 = .aluMul ⟨8, 255#8⟩ (some ⟨8, 129#8⟩) := by decide
theorem test_decode_div : decodeWord 8 0b11100111100100011000111#23 = .aluDiv ⟨8, 200#8⟩ (some ⟨8, 199#8⟩) := by decide
theorem test_decode_and : decodeWord 8 0b11101001111000000111100#23 = .aluAnd ⟨8, 240#8⟩ (some ⟨8, 60#8⟩) := by decide
theorem test_decode_or : decodeWord 8 0b11101011000000000000001#23 = .aluOr ⟨8, 128#8⟩ (some ⟨8, 1#8⟩) := by decide
theorem test_decode_xor : decodeWord 8 0b11101101010101001010101#23 = .aluXor ⟨8, 170#8⟩ (some ⟨8, 85#8⟩) := by decide
theorem test_decode_not : decodeWord 8 0b11001110000111100000111#23 = .aluNot ⟨8, 15#8⟩ := by decide
theorem test_decode_shl : decodeWord 8 0b11010001000000000000000#23 = .aluShl ⟨8, 128#8⟩ := by decide
theorem test_decode_shr : decodeWord 8 0b11110010000000111111111#23 = .aluShr ⟨8, 1#8⟩ := by decide
theorem test_decode_rol : decodeWord 8 0b11010101000000100000000#23 = .aluRol ⟨8, 129#8⟩ := by decide
theorem test_decode_ror : decodeWord 8 0b11010110000111100000000#23 = .aluRor ⟨8, 15#8⟩ := by decide
theorem test_decode_unassigned12 : decodeWord 8 0b11011000000100100001001#23 = .aluUnassigned12 := by decide
theorem test_decode_unassigned13 : decodeWord 8 0b11111010000000000000000#23 = .aluUnassigned13 := by decide
theorem test_decode_unassigned14 : decodeWord 8 0b11011100000000000000000#23 = .aluUnassigned14 := by decide
theorem test_decode_unassigned15 : decodeWord 8 0b11111110000100100001001#23 = .aluUnassigned15 := by decide
theorem test_decode_invalid : decodeWord 8 0b01111110000111100000111#23 = .aluInvalid false true := by decide
theorem test_decode_no_operand_b : decodeWord 8 0b11000000000010100000111#23 = .aluAdd ⟨8, 5#8⟩ none := by decide
theorem test_decode_var : decodeToken 0b00011111#8 = .tokVar 31#5 := by decide
theorem test_decode_tokAnd : decodeToken 0b00100000#8 = .tokAnd := by decide
theorem test_decode_tokOr : decodeToken 0b01000000#8 = .tokOr := by decide
theorem test_decode_tokXor : decodeToken 0b01100000#8 = .tokXor := by decide
theorem test_decode_tokNot : decodeToken 0b10000000#8 = .tokNot := by decide
theorem test_decode_reserved : decodeToken 0b00100001#8 = .tokReserved 0x21#8 := by decide
theorem test_table_word : decodeTableWord 24 0x680F00 = some (.aluShl ⟨8, 15#8⟩) := by decide
theorem test_table_token : decodeTableWord 8 0x40 = some .tokOr := by decide
theorem test_table_refuses : decodeTableWord 24 0x800000 = none ∧ decodeTableWord 16 0 = none := by decide
/-- N = 4 (95_test_vectors.md 2.8): the fields of DIV(0, 9), word 0x7309 of 15 bits. -/
theorem test_fields_width4 : opField 4 0x7309#15 = 3#4 ∧ aField 4 0x7309#15 = 0#4 ∧ bField 4 0x7309#15 = 9#4 ∧
    vopField 4 0x7309#15 = true := by decide

/-! ### The ALU instructions (95_test_vectors.md 2.1 to 2.7): RES, FLAGS, EVT, FAULT -/

theorem test_add_wraps : ports 0x70C864#23 = some (44, 0x12, 0, 0) := by decide
theorem test_add_signed : ports 0x708080#23 { Params.hardware with addVMode := .signed } = some (0, 0x07, 0, 0) := by decide
theorem test_sub_overflows : ports 0x717FFF#23 = some (128, 0x1E, 0, 0) := by decide
theorem test_sub_zero : ports 0x710500#23 = some (5, 0x02, 0, 0) ∧
    ports 0x710500#23 { Params.hardware with subBorrowMode := .compare } = some (5, 0x00, 0, 0) := by decide
theorem test_mul_truncates : ports 0x72FFFF#23 = some (1, 0x14, 0, 0) := by decide
theorem test_div_above_band : ports 0x73FFC8#23 = some (185, 0x18, 0, 0) ∧
    ports 0x73FFC8#23 { Params.hardware with divAccWidth := .wide } = some (1, 0x10, 0, 0) := by decide
theorem test_div_zero : ports 0x730700#23 = some (0, 0x01, 2, 0) := by decide
theorem test_and : ports 0x74F03C#23 = some (48, 0x00, 0, 0) := by decide
theorem test_or : ports 0x758001#23 = some (129, 0x08, 0, 0) := by decide
theorem test_xor : ports 0x760F01#23 = some (14, 0x10, 0, 0) := by decide
theorem test_not : ports 0x770F07#23 = some (240, 0x08, 0, 0) := by decide
theorem test_shl : ports 0x68FF00#23 = some (254, 0x1A, 0, 0) := by decide
theorem test_shr : ports 0x690F00#23 = some (7, 0x12, 0, 0) := by decide
theorem test_rol : ports 0x6A8000#23 = some (1, 0x12, 0, 0) := by decide
theorem test_ror : ports 0x6B0F00#23 = some (135, 0x0A, 0, 0) := by decide
theorem test_unassigned : ports 0x6C0909#23 = some (0, 0x01, 1, 0) ∧ ports 0x7F0909#23 = some (0, 0x01, 1, 0) := by decide
theorem test_invalid : ports 0x1F0F07#23 = some (0, 0, 0, 0x01) ∧
    (afterWord 0x500F07#23).bind (fun s => s.fault.map aluFaultInfo) = some 2 := by decide
theorem test_operand_b_missing : ports 0x610500#23 = some (0, 0, 0, 0x02) ∧
    (afterWord 0x610500#23).bind (fun s => s.fault.map aluFaultInfo) = some 1 := by decide
/-- Other parameters (00_scope.md R9): DIV(0, 9) in an instance with N = 4 (95_test_vectors.md 2.8), and the length and count
checks of an instance with LMAX = 2 and TT_MAX_VARS = 1 (46_postfix_machine.md R251, R259). -/
theorem test_other_instances :
    ((nextOf (step (State.afterReset false [.alu ⟨15, 0x7309#15⟩ false] { Params.hardware with n := 4 }))).map
      fun s => s.res) = some ⟨4, 14#4⟩ ∧
    (let p := { Params.hardware with lmax := 2, sd := 2, ttMaxVars := 1 }
     ((nextOf (step (State.afterReset false [.ev (aReq 0#2 [0, 0, 0] 0 0)] p))).map fun s => s.efault) =
       some (some (.progTooLong 3)) ∧
     ((nextOf (step (State.afterReset false [.ev (aReq 2#2 [] 0 2#6)] p))).map fun s => s.efault) =
       some (some (.ttTooLarge 2))) := by decide
/-- Other widths (95_test_vectors.md 2.8): DIV(0, 9) and SUB(8, 1) for N = 4, SUB(0, 1) for N = 1. -/
theorem test_other_widths : (divPath Params.hardware 0#4 9#4).result = 14#4 ∧
    (subPath Params.hardware 8#4 1#4).vflag = true ∧ (subPath Params.hardware 0#1 1#1).vflag = true := by decide
/-- 60_exceptions.md R305: the last record of DIV(5, 3) holds quotient 1 and remainder 2. -/
theorem test_div_trace :
    ((nextOf (step { State.reset with host := [.alu ⟨23, 0x730503#23⟩ true] })).bind fun s => s.trace.getLast?) =
      some (.divResult ⟨8, 1#8⟩ ⟨8, 2#8⟩) := by decide

/-! ### The tokens (46_postfix_machine.md R253 to R256) -/

/-- The stack after one token, top first. -/
def stackAfter (i : Instr) (stk : List Bool) : Option (List Bool) :=
  ((nextOf (exec i (running .eval [] 0 stk))).bind fun s => s.run).map fun r => r.stk

/-- EFAULT after one token. -/
def efaultAfter (i : Instr) (stk : List Bool) : Option EvFault :=
  (nextOf (exec i (running .eval [] 3 stk))).bind fun s => s.efault

theorem test_tokVar : stackAfter (.tokVar 2#5) [false] = some [true, false] := by decide
theorem test_tokAnd : stackAfter .tokAnd [false, true, true] = some [false, true] := by decide
theorem test_tokOr : stackAfter .tokOr [false, true, false] = some [true, false] := by decide
theorem test_tokXor : stackAfter .tokXor [true, true] = some [false] := by decide
theorem test_tokNot : stackAfter .tokNot [false, true] = some [true, true] := by decide
theorem test_token_faults : efaultAfter .tokNot [] = some (.stackUnderflow 3) ∧
    efaultAfter .tokXor [true] = some (.stackUnderflow 3) ∧ efaultAfter (.tokReserved 0xA0#8) [true] = some (.badToken 3) := by
  decide

/-! ### The commands (95_test_vectors.md 3.2 to 3.4, 4.5) -/

/-- OUT and EFAULT after `k` steps of a request. -/
def evPorts (k : Nat) (req : EvRequest) : Option (Bool × BitVec 8) :=
  (nextOf (runSteps k (asked req))).map fun s => (s.out, efaultPort s)

theorem test_eval_s7 : evPorts 8 (aReq 0#2 [0x00, 0x01, 0x40, 0x02, 0x80, 0x20] 0b001#32 0#6) = some (true, 0x00#8) := by
  decide
theorem test_eval_faults : evPorts 2 (aReq 0#2 [0x80, 0x00, 0x80] 1#32 0#6) = some (false, 0x13#8) ∧
    evPorts 4 (aReq 0#2 [0x00, 0x01] 1#32 0#6) = some (false, 0x15#8) ∧
    evPorts 2 (aReq 0#2 [] 1#32 0#6) = some (false, 0x15#8) ∧ evPorts 1 (aReq 3#2 [] 0#32 0#6) = some (false, 0x10#8) ∧
    evPorts 1 (aReq 0#2 (List.replicate 65 0x00#8) 0#32 0#6) = some (false, 0x11#8) ∧
    evPorts 1 (aReq 2#2 [] 0#32 0#6) = some (false, 0x16#8) ∧ evPorts 1 (aReq 2#2 [] 0#32 9#6) = some (false, 0x17#8) := by
  decide
theorem test_step_partial_trace :
    ((nextOf (runSteps 4 (asked (aReq 1#2 [0x00, 0x20] 1#32 0#6)))).map fun s => (s.etrace, s.efault)) =
      some ([.load 0 0 true [true]], some (.stackUnderflow 1)) := by decide
theorem test_table_not : ((nextOf (runSteps 7 (asked (aReq 2#2 [0x00, 0x80] 0#32 1#6)))).map fun s => s.ttout) =
    some ⟨256, 1#256⟩ := by decide

/-! ### The toolchain (95_test_vectors.md 2.10, 3.1, 3.2) -/

theorem test_assemble : assemble Params.hardware "A AND (B OR C) XOR NOT D".toList =
    .ok { names := [['A'], ['B'], ['C'], ['D']], tokens := [0x00, 0x01, 0x02, 0x40, 0x20, 0x03, 0x80, 0x60] } := by decide
theorem test_assemble_order : assemble Params.hardware "AB or A or B".toList =
    .ok { names := [['A'], ['A', 'B'], ['B']], tokens := [0x01, 0x00, 0x40, 0x02, 0x40] } := by decide
theorem test_assemble_refuses : assemble Params.hardware "(A OR B".toList = .error .unbalanced ∧
    assemble Params.hardware "A1".toList = .error .digitToken ∧
    assemble Params.hardware "~A".toList = .error .tilde ∧
    assemble Params.hardware "ORANGE AND B".toList = .error .reservedSubstring ∧
    assemble Params.hardware "A + B".toList = .error .badChar := by decide
theorem test_assembleAlu : assembleAlu 8 "ADD(15,7)".toList = some ⟨23, 0x700F07#23⟩ ∧
    assembleAlu 8 "ADD(5)".toList = some ⟨23, 0x600500#23⟩ ∧ assembleAlu 8 "SUB(3, 5)".toList = some ⟨23, 0x710305#23⟩ ∧
    assembleAlu 8 "add(1,2)".toList = none := by decide
theorem test_codec : decimalToBinary 300 8 = .ok (44#8, true) ∧ decimalToBinary (-1) 8 = .error (.domainError (-1)) ∧
    normalizeWidth 515#10 8 = (3#8, true) := by decide
theorem test_format : formatBinary 22#8 true = "0001 0110".toList ∧ formatBinary 10#6 true = "0010 10".toList ∧
    formatBinary 5#4 true = "0101".toList ∧ formatBinary 22#8 false = "0110 1000".toList := by decide
theorem test_format_table : formatTruthTable Params.hardware "A AND B".toList =
    .ok ["A | B | OUT".toList, "0 | 0 | 0".toList, "0 | 1 | 0".toList, "1 | 0 | 0".toList, "1 | 1 | 1".toList] := by decide

/-! ### Placing an instruction -/

theorem test_withFetchWord_word :
    ((nextOf (step (State.reset.withFetchWord 24 0x680F00))).map fun s => s.res) = some ⟨8, 30#8⟩ := by decide
theorem test_withFetchWord_token :
    ((nextOf (step (State.reset.withFetchWord 8 0x05))).bind fun s => s.run.map fun r => (r.stk, r.tp)) =
      some ([false], 1) := by decide

/-! ### Witnesses: the hypotheses of every statement can be met -/

theorem witness_ResetSetsEveryLatch : ({ State.reset with out := true, host := [.reset] } : State).host = .reset :: [] ∧
    ({ State.reset with out := true, host := [.reset] } : State).run = none := by decide

theorem witness_StepRunsThePresentedWord :
    ({ State.reset with host := [.alu ⟨23, 0x700F07#23⟩ true] } : State).host = .alu ⟨23, 0x700F07#23⟩ true :: [] := by decide

theorem witness_StepRunsTheTokenAtTp :
    (running .eval [0x00, 0x80] 1 [true]).run = some (aRun .eval [0x00, 0x80] 1 [true]) ∧
    (aRun .eval [0x00, 0x80] 1 [true]).tm[(aRun .eval [0x00, 0x80] 1 [true]).tp]? = some 0x80#8 ∧
    (running .eval [0x00, 0x80] 1 [true]).host = [] ∧
    ({ running .eval [0x00, 0x80] 1 [true] with host := [.wait] } : State).host = .wait :: [] ∧
    ({ running .eval [0x00, 0x80] 1 [true] with host := [.ev (aReq 0#2 [] 0 0)] } : State).host =
      .ev (aReq 0#2 [] 0 0) :: [] ∧
    ({ running .eval [0x00, 0x80] 1 [true] with host := [.reset] } : State).host = .reset :: [] := by decide

theorem witness_DecodeInvertsEncode : (Instr.aluInvalid true false).wf 8 = true ∧ (Instr.tokReserved 0x81#8).wf 8 = true ∧
    (Instr.tokReserved 0xFF#8).wf 8 = true ∧ (Instr.aluAdd ⟨8, 255#8⟩ none).wf 8 = true := by decide

theorem witness_WordsDecodeByMatchAndMask :
    0x76FF80#23 &&& 0x7F0000#23 = 0x700000#23 ||| BitVec.ofNat 23 6 <<< 16 ∧
    0x6600FF#23 &&& 0x7F0000#23 = 0x600000#23 ||| BitVec.ofNat 23 6 <<< 16 ∧
    0x7B8001#23 &&& 0x6F0000#23 = 0x600000#23 ||| BitVec.ofNat 23 11 <<< 16 ∧
    0x7F0909#23 &&& 0x6F0000#23 = 0x600000#23 ||| BitVec.ofNat 23 15 <<< 16 ∧
    0x5F0F07#23 &&& 0x600000#23 ≠ 0x600000#23 := by decide

theorem witness_TokensDecodeByTheTokenMap : (0x1F#8).toNat < 0x20 ∧ tokenListed 0x21#8 = false ∧
    tokenListed 0xFF#8 = false := by decide

theorem witness_widths : 0 < 1 ∧ (1#1 : BitVec 1) ≠ 0#1 ∧ (128#8).toNat ≤ 2 ^ (8 - 1) ∧ ¬ (129#8).toNat ≤ 2 ^ (8 - 1) := by
  decide

theorem witness_DivCompletes : operandOf State.reset ⟨8, 128#8⟩ ≠ 0#State.reset.params.n ∧
    (operandOf State.reset ⟨8, 128#8⟩).toNat ≤ 2 ^ (State.reset.params.n - 1) ∧
    operandOf State.reset ⟨8, 0#8⟩ = 0#State.reset.params.n ∧
    ({ State.reset with params := { Params.hardware with divAccWidth := .wide } } : State).params.divAccWidth = .wide := by
  decide

theorem witness_InvalidWordsFault : (true && false) = false ∧
    ({ State.reset with host := [.alu ⟨23, 0x3F0F07#23⟩ false] } : State).host = .alu ⟨23, 0x3F0F07#23⟩ false :: [] ∧
    (0x3F0F07#23).getLsbD (2 * State.reset.params.n + 6) = false ∧
    (0x5F0F07#23).getLsbD (2 * State.reset.params.n + 5) = false := by decide

theorem witness_FaultsWriteOnlyTheFaultPort : (Instr.aluAdd ⟨8, 5#8⟩ none).isAlu = true ∧
    (nextOf (exec (.aluAdd ⟨8, 5#8⟩ none) State.reset)).map (fun t => decide (t.fault ≠ none)) = some true ∧
    Instr.tokNot.isAlu = false ∧ (running .eval [0x80] 0 []).run = some (aRun .eval [0x80] 0 []) ∧
    (nextOf (exec .tokNot (running .eval [0x80] 0 []))).map (fun t => t.run) = some none := by decide

theorem witness_CompletedFlagFacts : (Instr.aluSub ⟨8, 0#8⟩ (some ⟨8, 1#8⟩)).isAlu = true ∧
    (nextOf (exec (.aluSub ⟨8, 0#8⟩ (some ⟨8, 1#8⟩)) State.reset)).map (fun t => (t.fault, t.flags.c)) = some (none, true) ∧
    (nextOf (exec (.aluSub ⟨8, 128#8⟩ (some ⟨8, 1#8⟩)) State.reset)).map (fun t => (t.fault, t.flags.v)) = some (none, true) ∧
    (nextOf (exec (.aluDiv ⟨8, 1#8⟩ (some ⟨8, 0#8⟩)) State.reset)).map (fun t => (t.fault, t.flags.z, t.evt)) =
      some (none, true, .divByZero) := by decide

theorem witness_AluReadsNoEarlierResult : (Instr.aluNot ⟨8, 0#8⟩).isAlu = true ∧
    State.reset.params = ({ State.reset with res := ⟨8, 9#8⟩ } : State).params ∧
    (nextOf (exec (.aluNot ⟨8, 0#8⟩) State.reset)).map (fun t => t.fault) = some none := by decide

theorem witness_TracingChangesOnlyTheBuffer : (Instr.aluMul ⟨8, 5#8⟩ none).isAlu = true ∧
    (nextOf (exec (.aluMul ⟨8, 5#8⟩ none) { State.reset with te := true })).map (fun t => decide (t.fault ≠ none)) =
      some true := by decide

/-- The premises of ShiftsComplete and of the statements about traces: the operands as N-bit vectors, 128 and 200 on either
side of the exact band of DIV. -/
theorem witness_traces : ({ State.reset with te := true } : State).te = true ∧
    operandOf { State.reset with te := true } ⟨8, 128#8⟩ = 128#8 ∧ (128#8 : BitVec 8) ≠ 0#8 ∧ (128#8).toNat ≤ 2 ^ (8 - 1) ∧
    operandOf { State.reset with te := true } ⟨8, 200#8⟩ = 200#8 :=
  ⟨rfl, rfl, by decide, by decide, rfl⟩

theorem witness_UnitsShareNoState : (nextOf (exec (.aluShl ⟨8, 1#8⟩) State.reset)).isSome = true ∧
    (nextOf (evTick (running .step [0x02] 0 []))).isSome = true := by decide

theorem witness_VarPushesItsSlot :
    (running .step [] 63 (List.replicate 63 true)).run = some (aRun .step [] 63 (List.replicate 63 true)) ∧
    (aRun .step [] 63 (List.replicate 63 true)).stk.length < State.reset.params.sd := by decide

theorem witness_OperatorsApplyTheirGate :
    (running .step [] 2 [true]).run = some (aRun .step [] 2 [true]) ∧ (aRun .step [] 2 [true]).stk = true :: [] ∧
    (running .step [] 2 [true, false]).run = some (aRun .step [] 2 [true, false]) ∧
    (aRun .step [] 2 [true, false]).stk = true :: false :: [] := by decide

theorem witness_TokenFaultsEndTheCommand :
    (running .eval [] 0 []).run = some (aRun .eval [] 0 []) ∧ (aRun .eval [] 0 []).stk = [] ∧
    (running .eval [] 1 [true]).run = some (aRun .eval [] 1 [true]) ∧ (aRun .eval [] 1 [true]).stk.length < 2 ∧
    (running .eval [] 64 (List.replicate 64 true)).run = some (aRun .eval [] 64 (List.replicate 64 true)) ∧
    (aRun .eval [] 64 (List.replicate 64 true)).stk.length = State.reset.params.sd := by decide

/-- An accepted request of 64 tokens, and the boundary values of the requests that are turned away. -/
theorem witness_commands :
    (asked (aReq 0#2 (List.replicate 64 0x00#8) 0 8#6)).host = .ev (aReq 0#2 (List.replicate 64 0x00#8) 0 8#6) :: [] ∧
    (asked (aReq 0#2 (List.replicate 64 0x00#8) 0 8#6)).run = none ∧
    (aReq 0#2 (List.replicate 64 0x00#8) 0 8#6).cmd = 0#2 ∧ (aReq 1#2 (List.replicate 64 0x00#8) 0 8#6).cmd = 1#2 ∧
    (aReq 3#2 [] 0 0).cmd = 3#2 ∧ State.reset.params.lmax = 64 ∧
    plenPort State.reset.params (aReq 0#2 (List.replicate 64 0x00#8) 0 8#6) = 64 ∧
    64 ≤ (aReq 0#2 (List.replicate 64 0x00#8) 0 8#6).prog.length ∧
    plenPort State.reset.params (aReq 0#2 (List.replicate 65 0x00#8) 0 8#6) = 65 := by decide

/-- The boundary values of the variable count and of the length of a TT. -/
theorem witness_tables :
    (aReq 2#2 (List.replicate 64 0x00#8) 0 8#6).cmd = 2#2 ∧ (aReq 2#2 [] 0 0#6).nvin = 0#6 ∧
    State.reset.params.ttMaxVars < (aReq 2#2 [] 0 9#6).nvin.toNat ∧
    (aReq 2#2 (List.replicate 64 0x00#8) 0 8#6).nvin ≠ 0#6 ∧
    (aReq 2#2 (List.replicate 64 0x00#8) 0 8#6).nvin.toNat ≤ State.reset.params.ttMaxVars ∧
    1 ≤ (aReq 2#2 [0x00] 0 1#6).nvin.toNat ∧
    plenPort State.reset.params (aReq 2#2 (List.replicate 65 0x00#8) 0 8#6) = 65 ∧
    plenPort State.reset.params (aReq 2#2 (List.replicate 64 0x00#8) 0 8#6) = 64 := by decide

/-- A program that completes in every row and one that faults: the premises of TableComputesEveryRow and of both parts of
FaultsDoNotDependOnValues. -/
theorem witness_passes : passValue 64 (rowAssignment 2 0) [0x00, 0x01, 0x20] = .ok false ∧
    passValue 64 0#32 [0x00, 0x20] = .error (.stackUnderflow 1) ∧
    passValue 64 (rowAssignment 1 0) [0x00, 0x20] = .error (.stackUnderflow 1) := by decide

theorem witness_StackNeverOverflows : Params.hardware.legal = true ∧
    (List.replicate 64 (0x00#8 : Token)).length ≤ Params.hardware.lmax := by decide

theorem witness_RowsEnumerateMostSignificantFirst : (32 : Nat) ≤ 32 ∧ (rowAssignment 2 1).getLsbD 1 = true ∧
    (rowAssignment 2 1).getLsbD 0 = false := by decide

/-- A legal state other than reset, in the middle of a truth table and after a fault, that steps to a next state. -/
def midTable : State :=
  { State.reset with
    res := ⟨8, 3#8⟩
    fault := some (.operandBMissing 6#4)
    efault := some (.finalDepth 2)
    run := some { kind := .table 2 1 (blankRows Params.hardware), tm := [0x00, 0x01, 0x20], tp := 2,
                  stk := [true, false], asg := rowAssignment 2 1 } }

theorem witness_StepKeepsLegalState : legalState midTable ∧ (nextOf (step midTable)).isSome = true := by
  refine ⟨⟨by decide, ⟨rfl, rfl⟩, ⟨by decide, by decide, by decide, fun h => absurd rfl h⟩, ?_, ?_, ?_⟩, by decide⟩
  · intro f h
    cases h
    show (6#4).toNat ≤ 6
    decide
  · intro f h
    cases h
    exact ⟨by decide, by decide⟩
  · intro r h
    cases h
    exact ⟨by decide, by decide, by decide, by decide, by decide, by decide, rfl, by simp [blankRows], rfl⟩

theorem witness_StepKeepsParameters : (nextOf (step State.reset)).isSome = true := by decide

theorem witness_EveryCommandEnds : ∃ r, (running .eval [0x00] 1 [true]).run = some r ∧
    legalRun State.reset.params r ∧
    (running .eval [0x00] 1 [true]).host = [] :=
  ⟨_, rfl, ⟨by decide, by decide, by decide, trivial⟩, rfl⟩

theorem witness_OperandLoader : (-1 : Int) < 0 ∧ 4 ≤ 8 ∧ 8 < 10 := by decide

theorem witness_ForeignCharactersAreRefused :
    ('1' ∈ ['A', '1'] ∧ isLetter (foldCase '1') = false ∧ isSeparator '1' = false ∧ '1' ∉ ['&', '|', '^', '!', '(', ')']) ∧
    (isLetter (foldCase '~') = false ∧ isSeparator '~' = false ∧ '~' ∉ ['&', '|', '^', '!', '(', ')']) ∧
    (isLetter (foldCase '[') = false ∧ isSeparator '[' = false ∧ '[' ∉ ['&', '|', '^', '!', '(', ')']) := by decide

theorem witness_AssembledProgramsFitTheMachine :
    assemble Params.hardware "A".toList = .ok { names := [['A']], tokens := [0x00] } := by decide

theorem witness_AssemblerFoldsCase :
    List.Forall₂ (fun c d : Char => d = c ∨ (97 ≤ c.toNat ∧ c.toNat ≤ 122 ∧ d.toNat + 32 = c.toNat))
      "a or Z".toList "A OR Z".toList ∧
    assemble Params.hardware "a or Z".toList = .ok { names := [['A'], ['Z']], tokens := [0x00, 0x01, 0x40] } := by decide

theorem witness_AssignmentsDefaultToZero : [['A']].length ≤ 32 ∧
    (∃ kv ∈ [(['A'], (2 : Int))], kv.2 ≠ 0 ∧ kv.2 ≠ 1) ∧ (∀ kv ∈ [(['A'], (1 : Int))], kv.2 = 0 ∨ kv.2 = 1) ∧
    [['A']][0]? = some ['A'] := by decide

theorem witness_AssembledProgramMeansItsExpression :
    tokenize "!A and (B | C)".toList =
      .ok (Formula.bin .and (.neg (.name ['A'])) (.paren (.bin .or (.name ['B']) (.name ['C'])))).lexemes ∧
    (Formula.bin .and (.neg (.name ['A'])) (.paren (.bin .or (.name ['B']) (.name ['C'])))).grammatical = true ∧
    assemble Params.hardware "!A and (B | C)".toList =
      .ok { names := [['A'], ['B'], ['C']], tokens := [0x00, 0x80, 0x01, 0x02, 0x40, 0x20] } ∧
    buildAsgin [['A'], ['B'], ['C']] [(['C'], 1)] = .ok 0b100#32 := by decide

end Sys2Proof.Tests
end

section
/-! SUPPORT. The parameters and the host's list under every move of the machine (00_scope.md R9; log 1, log 3),
from one lemma per function of the step; and O50, which rests on it. -/

namespace Sys2Proof.Machine

/-- The part of the state that belongs to neither unit is the same: the parameters and the host's list. -/
def KeepsInstance (s t : State) : Prop := t.params = s.params ∧ t.host = s.host

/-! ### The shared operations -/

section
variable (s : State)

theorem keepsInstance_refl : KeepsInstance s s := ⟨rfl, rfl⟩

theorem aluCommit_keepsInstance {n : Nat} (o : PathOut n) (records : List AluRecord) :
    KeepsInstance s (aluCommit o records s) := ⟨rfl, rfl⟩

theorem aluRaise_keepsInstance (f : AluFault) : KeepsInstance s (aluRaise f s) := ⟨rfl, rfl⟩

theorem evRaise_keepsInstance (f : EvFault) : KeepsInstance s (evRaise f s) := ⟨rfl, rfl⟩

theorem tokenDone_keepsInstance (r : Run) (stk : List Bool) (record : StepRecord) :
    KeepsInstance s (tokenDone r stk record s) := ⟨rfl, rfl⟩

theorem resetEvent_keepsInstance : KeepsInstance s (resetEvent s) := ⟨rfl, rfl⟩

end

/-! ### Instructions -/

/-- A token's meaning answers a next state only while a command is in progress (log 12). -/
theorem run_of_exec_token {i : Instr} (hi : i.isAlu = false) {s t : State} (h : exec i s = .next t) :
    ∃ r, s.run = some r := by
  have inPass_run : ∀ k, inPass s k = .next t → ∃ r, s.run = some r := fun k hk =>
    let ⟨r, hr, _⟩ := inPass_next.mp hk
    ⟨r, hr⟩
  cases i with
  | tokVar k => exact inPass_run _ h
  | tokAnd => exact inPass_run _ h
  | tokOr => exact inPass_run _ h
  | tokXor => exact inPass_run _ h
  | tokNot => exact inPass_run _ h
  | tokReserved u => exact inPass_run _ h
  | _ => cases hi

theorem exec_keepsInstance {i : Instr} {s t : State} (h : exec i s = .next t) : KeepsInstance s t := by
  cases hi : i.isAlu with
  | true =>
    obtain ⟨f, he⟩ | ⟨o, records, he⟩ := exec_alu_cases hi s <;> cases he.symm.trans h
    · exact aluRaise_keepsInstance s f
    · exact aluCommit_keepsInstance s o records
  | false =>
    obtain ⟨r, hr⟩ := run_of_exec_token hi h
    obtain ⟨stk, record, he⟩ | ⟨f, he⟩ := exec_token_cases hi hr <;> cases he.symm.trans h
    · exact tokenDone_keepsInstance s r stk record
    · exact evRaise_keepsInstance s f

/-! ### The evaluator's commands -/

theorem loadProgram_keepsInstance {req : EvRequest} {s t : State} {k : List Token → State}
    (h : loadProgram req s k = .next t) (hk : ∀ tm, KeepsInstance s (k tm)) : KeepsInstance s t := by
  obtain ⟨-, he⟩ | ⟨-, -, he⟩ | ⟨-, -, he⟩ := loadProgram_cases req s k <;> cases he.symm.trans h
  · exact evRaise_keepsInstance s _
  · exact hk _

theorem startTable_keepsInstance {req : EvRequest} {s t : State} (h : startTable req s = .next t) :
    KeepsInstance s t := by
  unfold startTable at h
  split at h
  · cases h
    exact evRaise_keepsInstance s _
  · split at h
    · cases h
      exact evRaise_keepsInstance s _
    · exact loadProgram_keepsInstance h fun _ => ⟨rfl, rfl⟩

theorem evStart_keepsInstance {req : EvRequest} {s t : State} (h : evStart req s = .next t) : KeepsInstance s t := by
  obtain ⟨-, he⟩ | ⟨-, he⟩ | ⟨-, he⟩ | ⟨-, he⟩ := evStart_cases req s <;> rw [he] at h
  · exact loadProgram_keepsInstance h fun _ => ⟨rfl, rfl⟩
  · exact loadProgram_keepsInstance h fun _ => ⟨rfl, rfl⟩
  · exact startTable_keepsInstance h
  · cases h
    exact evRaise_keepsInstance s _

theorem finishRow_keepsInstance (r : Run) (nvar row : Nat) (rows : Vec) (result : Bool) (s : State) :
    KeepsInstance s (finishRow r nvar row rows result s) := by
  unfold finishRow
  split
  · exact ⟨rfl, rfl⟩
  · exact ⟨completeTable_params _ s, completeTable_host _ s⟩

theorem finishPass_keepsInstance (r : Run) (result : Bool) (s : State) : KeepsInstance s (finishPass r result s) := by
  unfold finishPass
  split
  · exact ⟨completeEval_params _ s, completeEval_host _ s⟩
  · exact ⟨rfl, rfl⟩
  · exact finishRow_keepsInstance r _ _ _ result s

theorem evFinish_keepsInstance (r : Run) (s : State) : KeepsInstance s (evFinish r s) := by
  obtain ⟨b, -, he⟩ | ⟨-, he⟩ := evFinish_cases r s <;> rw [he]
  · exact finishPass_keepsInstance r b s
  · exact evRaise_keepsInstance s _

theorem evAdvance_keepsInstance {r : Run} {s t : State} (h : evAdvance r s = .next t) : KeepsInstance s t := by
  unfold evAdvance at h
  split at h
  · exact exec_keepsInstance h
  · cases h
    exact evFinish_keepsInstance r s

theorem evTick_keepsInstance {s t : State} (h : evTick s = .next t) : KeepsInstance s t := by
  unfold evTick at h
  split at h
  · exact evAdvance_keepsInstance h
  · cases h
    exact keepsInstance_refl s

/-! ### The step -/

/-- A move made from the state with the host's first entry taken keeps the parameters and leaves the host's tail. -/
theorem KeepsInstance.of_entry_taken {s u t : State} {a : HostAction} {rest : List HostAction} (h : KeepsInstance u t)
    (hs : s.host = a :: rest) (hp : u.params = s.params) (hu : u.host = rest) :
    t.params = s.params ∧ t.host = s.host.tail := by
  obtain ⟨params_eq, host_eq⟩ := h
  exact ⟨params_eq.trans hp, by rw [host_eq, hu, hs, List.tail_cons]⟩

/-- A step is a move of one unit from the present state, or from the one with the host's entry taken (log 3). -/
theorem step_keepsInstance_or_takes_entry {s t : State} (h : step s = .next t) :
    KeepsInstance s t ∨ (t.params = s.params ∧ t.host = s.host.tail) := by
  obtain ⟨w, te, rest, hs, he⟩ | ⟨rest, hs, he⟩ | ⟨-, he⟩ | ⟨req, rest, hs, -, he⟩ | ⟨rest, hs, -, he⟩ | ⟨r, -, -, he⟩ :=
    step_cases s <;> rw [he] at h
  · exact .inr ((exec_keepsInstance h).of_entry_taken hs rfl rfl)
  · exact .inr ((evTick_keepsInstance h).of_entry_taken hs rfl rfl)
  · exact .inl (evTick_keepsInstance h)
  · exact .inr ((evStart_keepsInstance h).of_entry_taken hs rfl rfl)
  · cases h
    exact .inr ((resetEvent_keepsInstance _).of_entry_taken hs rfl rfl)
  · exact .inl (evAdvance_keepsInstance h)

/-- No step changes the parameters (00_scope.md R9; log 1). -/
theorem step_params {s t : State} (h : step s = .next t) : t.params = s.params := by
  obtain ⟨hp, -⟩ | ⟨hp, -⟩ := step_keepsInstance_or_takes_entry h <;> exact hp

theorem step_host {s t : State} (h : step s = .next t) : t.host = s.host ∨ t.host = s.host.tail :=
  (step_keepsInstance_or_takes_entry h).imp And.right And.right

/-- The PLEN port has the least width that holds LMAX (10_state.md R30). -/
theorem plenWidth_le_iff {lmax : Nat} (h : 1 ≤ lmax) (k : Nat) : lmax + 1 ≤ 2 ^ k ↔ plenWidth lmax ≤ k :=
  (Nat.log2_lt (by omega)).symm

/-- Settles O50: R9's values are read off the reset state, and every step keeps them
by `step_params`, which rests on one frame lemma per function of the step. -/
theorem stepKeepsParameters : Obligations.StepKeepsParameters :=
  ⟨rfl, rfl, rfl, (by decide), fun _ h k => plenWidth_le_iff h k, fun _ _ h => ⟨step_params h, step_host h⟩⟩

end Sys2Proof.Machine
end

section
/-! SUPPORT. What each unit's instructions read: an ALU instruction decides on its answer by the parameters alone, a token by
the parameters and the command in progress. From these O30 and O34. -/

namespace Sys2Proof.Machine

/-! ### The ALU unit reads the parameters only -/

/-- In every state with the parameters `p` the meaning raises the same fault or commits the same path and records. -/
def AnswersByParams (p : Params) (meaning : State → Host.Outcome State Fault Refusal) : Prop :=
  (∃ f, ∀ s, s.params = p → meaning s = .next (aluRaise f s)) ∨
    (∃ o : PathOut p.n, ∃ records, ∀ s, s.params = p → meaning s = .next (aluCommit o records s))

theorem answersByParams_raise (p : Params) (f : AluFault) : AnswersByParams p fun s => .next (aluRaise f s) :=
  .inl ⟨f, fun _ _ => rfl⟩

theorem answersByParams_commit (p : Params) (o : ∀ q : Params, PathOut q.n) (records : Params → List AluRecord) :
    AnswersByParams p fun s => .next (aluCommit (o s.params) (records s.params) s) :=
  .inr ⟨o p, records p, by rintro s rfl; rfl⟩

theorem answersByParams_unary (p : Params) (a : Operand) (o : ∀ {n}, BitVec n → PathOut n)
    (records : ∀ {n}, BitVec n → List AluRecord) :
    AnswersByParams p fun s => .next (aluCommit (o (operandOf s a)) (records (operandOf s a)) s) :=
  answersByParams_commit p (fun q => o (a.fit q.n)) (fun q => records (a.fit q.n))

theorem answersByParams_binary (p : Params) (op : BitVec 4) (a : Operand) (b : Option Operand)
    (o : ∀ q : Params, BitVec q.n → BitVec q.n → PathOut q.n)
    (records : ∀ q : Params, BitVec q.n → BitVec q.n → List AluRecord) :
    AnswersByParams p fun s => withOperandB op b s fun y =>
      aluCommit (o s.params (operandOf s a) y) (records s.params (operandOf s a) y) s := by
  cases b with
  | none => exact answersByParams_raise p (.operandBMissing op)
  | some b => exact answersByParams_commit p (fun q => o q (a.fit q.n) (b.fit q.n)) (fun q => records q (a.fit q.n) (b.fit q.n))

/-- No latch, buffer or port of either unit decides what an ALU instruction answers (44_alu_dispatch_flags.md R196). -/
theorem exec_alu_answersByParams {i : Instr} (h : i.isAlu = true) (p : Params) : AnswersByParams p (exec i) := by
  cases i with
  | aluAdd a b => exact answersByParams_binary p 0#4 a b (fun q => addPath q) fun _ => addRecords
  | aluSub a b => exact answersByParams_binary p 1#4 a b (fun q => subPath q) fun _ => subRecords
  | aluMul a b => exact answersByParams_binary p 2#4 a b (fun _ => mulPath) fun _ => mulRecords
  | aluDiv a b => exact answersByParams_binary p 3#4 a b (fun q => divPath q) fun q => divRecords (accWidth q q.n)
  | aluAnd a b => exact answersByParams_binary p 4#4 a b (fun _ => gatePath gateAnd) fun _ => gateRecords gateAnd
  | aluOr a b => exact answersByParams_binary p 5#4 a b (fun _ => gatePath gateOr) fun _ => gateRecords gateOr
  | aluXor a b => exact answersByParams_binary p 6#4 a b (fun _ => gatePath gateXor) fun _ => gateRecords gateXor
  | aluNot a => exact answersByParams_unary p a notPath notRecords
  | aluShl a => exact answersByParams_unary p a shlPath fun x => shiftRecords x (shlPath x).cflag (shlPath x).result
  | aluShr a => exact answersByParams_unary p a shrPath fun x => shiftRecords x (shrPath x).cflag (shrPath x).result
  | aluRol a => exact answersByParams_unary p a rolPath fun x => shiftRecords x (rolPath x).cflag (rolPath x).result
  | aluRor a => exact answersByParams_unary p a rorPath fun x => shiftRecords x (rorPath x).cflag (rorPath x).result
  | aluUnassigned12 => exact answersByParams_commit p (fun q => unknownPath q.n) fun _ => unknownRecords 12#4
  | aluUnassigned13 => exact answersByParams_commit p (fun q => unknownPath q.n) fun _ => unknownRecords 13#4
  | aluUnassigned14 => exact answersByParams_commit p (fun q => unknownPath q.n) fun _ => unknownRecords 14#4
  | aluUnassigned15 => exact answersByParams_commit p (fun q => unknownPath q.n) fun _ => unknownRecords 15#4
  | aluInvalid vop va => exact answersByParams_raise p (.invalidInstruction (missingMask vop va))
  | tokVar k => cases h
  | tokAnd => cases h
  | tokOr => cases h
  | tokXor => cases h
  | tokNot => cases h
  | tokReserved t => cases h

/-- Settles O30: with either TE the instruction answers by the same `aluRaise` or the same `aluCommit`; of these only a
commit under TE = 1 writes the buffer. -/
theorem tracingChangesOnlyTheBuffer : Obligations.TracingChangesOnlyTheBuffer := by
  intro i s hi
  obtain ⟨f, he⟩ | ⟨o, records, he⟩ := exec_alu_answersByParams hi s.params
  · exact ⟨_, _, he { s with te := false } rfl, he { s with te := true } rfl, rfl, rfl, fun _ => rfl⟩
  · exact ⟨_, _, he { s with te := false } rfl, he { s with te := true } rfl, rfl, rfl, fun hf => absurd rfl hf⟩

/-! ### The evaluator unit reads the parameters and the command in progress -/

/-- A token's effect is decided by the stack depth SD and the command in progress alone (46_postfix_machine.md R252). -/
theorem exec_token_eq_runToken {i : Instr} (h : i.isAlu = false) (p : Params) (r : Run) :
    ∃ effect, ∀ s, s.params = p → s.run = some r → exec i s = .next (runToken s r effect) := by
  have inPass_of_run : ∀ (s : State) (k : Run → State), s.run = some r → inPass s k = .next (k r) :=
    fun s k hr => inPass_next.mpr ⟨r, hr, rfl⟩
  cases i with
  | tokVar k => exact ⟨varEffect p.sd r k, by rintro s rfl hr; exact inPass_of_run s _ hr⟩
  | tokAnd => exact ⟨binEffect .and r, fun s _ hr => inPass_of_run s _ hr⟩
  | tokOr => exact ⟨binEffect .or r, fun s _ hr => inPass_of_run s _ hr⟩
  | tokXor => exact ⟨binEffect .xor r, fun s _ hr => inPass_of_run s _ hr⟩
  | tokNot => exact ⟨notEffect r, fun s _ hr => inPass_of_run s _ hr⟩
  | tokReserved t => exact ⟨.error (.badToken r.tp), fun s _ hr => inPass_of_run s _ hr⟩
  | _ => cases h

theorem decodeOperator_isAlu (t : Token) {i : Instr} (h : i.isAlu = false) : (decodeOperator t i).isAlu = false := by
  unfold decodeOperator
  split
  · exact h
  · rfl

/-- A token decodes to an instruction of the evaluator unit. -/
@[simp] theorem decodeToken_isAlu (t : Token) : (decodeToken t).isAlu = false := by
  unfold decodeToken
  split
  · rfl
  · exact decodeOperator_isAlu t rfl
  · exact decodeOperator_isAlu t rfl
  · exact decodeOperator_isAlu t rfl
  · exact decodeOperator_isAlu t rfl
  · rfl

/-! ### Frames across the units -/

section
variable (s u : State)

theorem aluRaise_withEvaluatorOf (f : AluFault) :
    aluRaise f (withEvaluatorOf s u) = withEvaluatorOf (aluRaise f s) u := rfl

theorem aluCommit_withEvaluatorOf {n : Nat} (o : PathOut n) (records : List AluRecord) :
    aluCommit o records (withEvaluatorOf s u) = withEvaluatorOf (aluCommit o records s) u := rfl

theorem evRaise_withAluOf (f : EvFault) : evRaise f (withAluOf s u) = withAluOf (evRaise f s) u := rfl

theorem runToken_withAluOf (r : Run) (effect : Except EvFault (List Bool × StepRecord)) :
    runToken (withAluOf s u) r effect = withAluOf (runToken s r effect) u := by
  cases effect <;> rfl

theorem finishRow_withAluOf (r : Run) (nvar row : Nat) (rows : Vec) (result : Bool) :
    finishRow r nvar row rows result (withAluOf s u) = withAluOf (finishRow r nvar row rows result s) u := by
  unfold finishRow
  split <;> rfl

theorem finishPass_withAluOf (r : Run) (result : Bool) :
    finishPass r result (withAluOf s u) = withAluOf (finishPass r result s) u := by
  unfold finishPass
  split
  · rfl
  · rfl
  · exact finishRow_withAluOf s u r _ _ _ result

theorem evFinish_withAluOf (r : Run) : evFinish r (withAluOf s u) = withAluOf (evFinish r s) u := by
  unfold evFinish
  split
  · exact finishPass_withAluOf s u r _
  · exact evRaise_withAluOf s u _

end

theorem exec_alu_withEvaluatorOf {i : Instr} (hi : i.isAlu = true) {s t : State} (u : State) (h : exec i s = .next t) :
    exec i (withEvaluatorOf s u) = .next (withEvaluatorOf t u) := by
  obtain ⟨f, he⟩ | ⟨o, records, he⟩ := exec_alu_answersByParams hi s.params <;> cases (he s rfl).symm.trans h
  · rw [he (withEvaluatorOf s u) rfl, aluRaise_withEvaluatorOf]
  · rw [he (withEvaluatorOf s u) rfl, aluCommit_withEvaluatorOf]

theorem evAdvance_withAluOf {r : Run} {s t : State} (u : State) (hr : s.run = some r) (h : evAdvance r s = .next t) :
    evAdvance r (withAluOf s u) = .next (withAluOf t u) := by
  unfold evAdvance at h ⊢
  split at h
  next token _ =>
    obtain ⟨effect, he⟩ := exec_token_eq_runToken (decodeToken_isAlu token) s.params r
    cases (he s rfl hr).symm.trans h
    rw [he (withAluOf s u) rfl hr, runToken_withAluOf]
  next =>
    cases h
    rw [evFinish_withAluOf]

theorem evTick_withAluOf {s t : State} (u : State) (h : evTick s = .next t) :
    evTick (withAluOf s u) = .next (withAluOf t u) := by
  have hu : (withAluOf s u).run = s.run := rfl
  cases hr : s.run with
  | none =>
    simp only [evTick, hr] at h
    cases h
    simp only [evTick, hu, hr]
  | some r =>
    simp only [evTick, hr] at h
    simpa only [evTick, hu, hr] using evAdvance_withAluOf u hr h

/-- Settles O34: each unit's move is made of updates that commute with replacing the other unit's state. -/
theorem unitsShareNoState : Obligations.UnitsShareNoState :=
  ⟨fun _ _ _ u hi h => exec_alu_withEvaluatorOf hi u h, fun _ _ u h => evTick_withAluOf u h⟩

end Sys2Proof.Machine
end

section
/-! SUPPORT. The reset event at the ports (10_state.md R45, 70_reset_and_hazards.md R320); and O1, which rests on it. -/

namespace Sys2Proof.Machine

/-- The power-on state is what the reset event leaves of itself. -/
theorem resetEvent_reset : resetEvent State.reset = State.reset := rfl

theorem eventCode_resetEvent (s : State) : eventCode (resetEvent s).evt = 0#2 := rfl

@[simp] theorem faultPort_resetEvent (s : State) : faultPort (resetEvent s) = 0#8 := rfl

@[simp] theorem efaultPort_resetEvent (s : State) : efaultPort (resetEvent s) = 0#8 := rfl

/-- An idle evaluator lets the host's reset through, and its entry is taken (log 26). -/
theorem step_of_reset_idle {s : State} {rest : List HostAction} (hs : s.host = .reset :: rest) (hr : s.run = none) :
    step s = .next (resetEvent { s with host := rest }) := by
  simp [step, machineStep, hs, hr]

/-- Settles O1: both clauses are what the reset event leaves, the power-on state being a fixed point of it. -/
theorem resetSetsEveryLatch : Obligations.ResetSetsEveryLatch := by
  refine ⟨?_, fun s rest hs hr => ⟨_, step_of_reset_idle hs hr, ?_⟩⟩
  · rw [← resetEvent_reset]
    exact ⟨resetEvent_flags _, resetEvent_res _, eventCode_resetEvent _, faultPort_resetEvent _, resetEvent_trace _,
      resetEvent_out _, resetEvent_ttout _, efaultPort_resetEvent _, resetEvent_etrace _, resetEvent_run _⟩
  · exact ⟨resetEvent_flags _, resetEvent_res _, eventCode_resetEvent _, faultPort_resetEvent _, resetEvent_trace _,
      resetEvent_out _, resetEvent_ttout _, efaultPort_resetEvent _, resetEvent_etrace _, resetEvent_run _,
      resetEvent_host _, resetEvent_params _⟩

end Sys2Proof.Machine
end

section
/-! SUPPORT. Each unit's move in other surroundings with the same parameters: whatever the other unit, the
host's list and the latches it does not own hold, it answers the same in its own part. From this O35. -/

namespace Sys2Proof.Machine

/-! ### A presented word is for the ALU unit -/

theorem decodeOp_isAlu (op : BitVec 4) (a : Operand) (b : Option Operand) : (decodeOp op a b).isAlu = true := by
  unfold decodeOp
  split <;> rfl

@[simp] theorem decodeWord_isAlu (n : Nat) {k : Nat} (w : BitVec k) : (decodeWord n w).isAlu = true := by
  unfold decodeWord
  split
  · exact decodeOp_isAlu _ _ _
  · rfl

/-! ### The ALU unit in other surroundings -/

/-- An ALU instruction answers in every state, and carries the evaluator's state and the host's list of any `v` through. -/
theorem exec_alu_withAluOf {i : Instr} (hi : i.isAlu = true) (s : State) :
    ∃ t, ∀ v, v.params = s.params → exec i (withAluOf v s) = .next (withAluOf v t) := by
  obtain ⟨f, he⟩ | ⟨o, records, he⟩ := exec_alu_answersByParams hi s.params
  · exact ⟨aluRaise f s, fun v hv => he (withAluOf v s) hv⟩
  · exact ⟨aluCommit o records s, fun v hv => he (withAluOf v s) hv⟩

/-! ### The evaluator unit in other surroundings -/

section
variable (v s : State) (r : Run)

theorem runToken_withEvaluatorOf (effect : Except EvFault (List Bool × StepRecord)) :
    runToken (withEvaluatorOf v s) r effect = withEvaluatorOf v (runToken s r effect) := by
  cases effect <;> rfl

theorem finishRow_withEvaluatorOf (nvar row : Nat) (rows : Vec) (result : Bool) :
    finishRow r nvar row rows result (withEvaluatorOf v s) = withEvaluatorOf v (finishRow r nvar row rows result s) := by
  unfold finishRow
  split <;> rfl

theorem finishPass_withEvaluatorOf (result : Bool) :
    finishPass r result (withEvaluatorOf v s) = withEvaluatorOf v (finishPass r result s) := by
  unfold finishPass
  split
  · rfl
  · rfl
  · exact finishRow_withEvaluatorOf v s r _ _ _ result

theorem evFinish_withEvaluatorOf : evFinish r (withEvaluatorOf v s) = withEvaluatorOf v (evFinish r s) := by
  unfold evFinish
  split
  · exact finishPass_withEvaluatorOf v s r _
  · rfl

end

/-- A step of the evaluator answers in every state, and carries the ALU unit's state and the host's list of any `v` through. -/
theorem evTick_withEvaluatorOf (s : State) :
    ∃ t, ∀ v, v.params = s.params → evTick (withEvaluatorOf v s) = .next (withEvaluatorOf v t) := by
  have hrun : ∀ v, (withEvaluatorOf v s).run = s.run := fun _ => rfl
  cases hr : s.run with
  | none => exact ⟨s, fun v _ => by simp only [evTick, hrun, hr]⟩
  | some r =>
    simp only [evTick, evAdvance, hrun, hr]
    cases r.tm[r.tp]? with
    | some token =>
      obtain ⟨effect, he⟩ := exec_token_eq_runToken (decodeToken_isAlu token) s.params r
      exact ⟨runToken s r effect, fun v hv => by
        rw [← runToken_withEvaluatorOf]; exact he (withEvaluatorOf v s) hv hr⟩
    | none => exact ⟨evFinish r s, fun v _ => by rw [← evFinish_withEvaluatorOf]⟩

/-! ### The two orders -/

theorem runSteps_two {s t u : State} (hs : step s = .next t) (ht : step t = .next u) : runSteps 2 s = .next u := by
  simp only [runSteps, andThen, hs, ht]

/-- Settles O35: in either order the evaluator's step takes `s` to the evaluator's part of `t` and the instruction takes it
to the ALU's part of `u`, each carrying the other's part through; the host's list ends as `rest`. -/
theorem interleavingOfUnitsDoesNotMatter : Obligations.InterleavingOfUnitsDoesNotMatter := by
  intro s w te rest
  obtain ⟨t, tick⟩ := evTick_withEvaluatorOf s
  obtain ⟨u, alu⟩ := exec_alu_withAluOf (decodeWord_isAlu s.params.n w.bits) { s with te := te }
  have wait_first : runSteps 2 { s with host := .wait :: .alu w te :: rest } =
      .next (withAluOf (withEvaluatorOf { s with host := rest } t) u) :=
    runSteps_two (tick { s with host := .alu w te :: rest } rfl) (alu (withEvaluatorOf { s with host := rest } t) rfl)
  have alu_first : runSteps 2 { s with host := .alu w te :: .wait :: rest } =
      .next (withEvaluatorOf (withAluOf { s with host := rest } u) t) :=
    runSteps_two (alu { s with host := .wait :: rest } rfl) (tick (withAluOf { s with host := rest } u) rfl)
  exact wait_first.trans alu_first.symm

end Sys2Proof.Machine
end

section
/-! SUPPORT. The decoder of instruction words: on a packed word of any width N, and on a word of this hardware by its row's
match and mask (30_encoding.md R80 to R87). -/

namespace Sys2Proof

/-! ### Packed words -/

section
variable (n : Nat) (op : BitVec 4)

/-- A word that supplies the opcode and operand A decodes by the opcode map; VB says whether operand B is there. -/
theorem decodeWord_packWord (vb : Bool) (a b : BitVec n) :
    decodeWord n (packWord n true true vb op a b).bits = decodeOp op ⟨n, a⟩ (if vb then some ⟨n, b⟩ else none) := by
  simp [decodeWord]

theorem decodeWord_packWord_invalid {vop va : Bool} (h : (vop && va) = false) (vb : Bool) (a b : BitVec n) :
    decodeWord n (packWord n vop va vb op a b).bits = .aluInvalid vop va := by
  simp only [decodeWord, vopField_packWord, vaField_packWord, h, Bool.false_eq_true, if_false]

/-- An operand that fills its field is not changed by it. -/
theorem Vec.mk_fit {v : Vec} (h : v.hasWidth n = true) : (⟨n, v.fit n⟩ : Vec) = v := by
  obtain ⟨width, bits⟩ := v
  obtain rfl : width = n := by simpa [Vec.hasWidth] using h
  rw [Vec.fit_mk]

theorem decodeWord_packBinary {a : Operand} {b : Option Operand} (h : binaryOperandsFit n a b = true) :
    decodeWord n (packBinary n op a b).bits = decodeOp op a b := by
  obtain ⟨ha, hb⟩ : a.hasWidth n = true ∧ b.all (Vec.hasWidth n) = true := by simpa [binaryOperandsFit] using h
  rw [packBinary, decodeWord_packWord, Vec.mk_fit n ha]
  cases b with
  | none => rfl
  | some b => exact congrArg (fun v => decodeOp op a (some v)) (Vec.mk_fit n hb)

theorem decodeWord_packUnary {a : Operand} (h : a.hasWidth n = true) :
    decodeWord n (packUnary n op a).bits = decodeOp op a none := by
  rw [packUnary, decodeWord_packWord, Vec.mk_fit n h]
  rfl

theorem decodeWord_packUnassigned : decodeWord n (packUnassigned n op).bits = decodeOp op ⟨n, 0#n⟩ none :=
  decodeWord_packWord n op false 0#n 0#n

end

/-! ### Match and mask, for N = 8 -/

section
variable {w mask value : BitVec 23}

/-- A word that matches a row has the row's bits wherever the mask does not ignore them. -/
theorem getLsbD_of_match (h : w &&& mask = value) {i : Nat} (hi : mask.getLsbD i = true) :
    w.getLsbD i = value.getLsbD i := by
  rw [← h, BitVec.getLsbD_and, hi, Bool.and_true]

theorem opField_of_match (h : w &&& mask = value) (hm : opField 8 mask = 15#4) : opField 8 w = opField 8 value := by
  have hand : opField 8 (w &&& mask) = opField 8 w &&& opField 8 mask := BitVec.extractLsb'_and
  rw [← h, hand, hm]
  exact BitVec.and_allOnes.symm

end

theorem aField_eq_setWidth (w : BitVec 23) : aField 8 w = (w >>> 8).setWidth 8 := by
  apply BitVec.eq_of_getLsbD_eq
  intro i hi
  simp [aField, hi]

theorem bField_eq_setWidth (w : BitVec 23) : bField 8 w = w.setWidth 8 := by
  apply BitVec.eq_of_getLsbD_eq
  intro i hi
  simp [bField, hi]

/-- A row's number stands in the OP field of the row's value. -/
theorem opField_rowValue (base : BitVec 23) (k : Nat) :
    opField 8 (base ||| BitVec.ofNat 23 k <<< 16) = opField 8 base ||| BitVec.ofNat 4 k := by
  apply BitVec.eq_of_getLsbD_eq
  intro i hi
  simp only [opField, BitVec.getLsbD_extractLsb', BitVec.getLsbD_or, BitVec.getLsbD_shiftLeft, BitVec.getLsbD_ofNat]
  simp [hi, show 16 + i < 23 by omega, show i < 23 by omega]

/-- A row's number is no part of VOP, VA and VB. -/
theorem getLsbD_rowValue (base : BitVec 23) {k : Nat} (hk : k < 16) {i : Nat} (hi : 20 ≤ i) :
    (base ||| BitVec.ofNat 23 k <<< 16).getLsbD i = base.getLsbD i := by
  have high_bit : k.testBit (i - 16) = false :=
    Nat.testBit_lt_two_pow (hk.trans_le (Nat.pow_le_pow_right (n := 2) (by decide) (by omega : 4 ≤ i - 16)))
  simp [BitVec.getLsbD_ofNat, high_bit]

/-- A word with VOP = VA = 1 and a row's number in the OP field decodes by the opcode map; VB says whether operand B is
there, if the row's mask does not ignore it. -/
theorem decodeWord_of_match {w mask base : BitVec 23} {k : Nat} (hk : k < 16)
    (h : w &&& mask = base ||| BitVec.ofNat 23 k <<< 16) (hmask : mask &&& 0x6F0000#23 = 0x6F0000#23)
    (hbase : base &&& 0x6F0000#23 = 0x600000#23) :
    decodeWord 8 w = decodeOp (BitVec.ofNat 4 k) ⟨8, (w >>> 8).setWidth 8⟩
      (if w.getLsbD 20 then some ⟨8, w.setWidth 8⟩ else none) := by
  have supplied : ∀ i, 20 ≤ i → (0x6F0000#23).getLsbD i = true → (0x600000#23).getLsbD i = true →
      w.getLsbD i = true := fun i hi hm hb => by
    rw [getLsbD_of_match h (by simpa [hm] using getLsbD_of_match hmask hm), getLsbD_rowValue base hk hi,
      getLsbD_of_match hbase hm, hb]
  have hvop : vopField 8 w = true := supplied 22 (by decide) (by decide) (by decide)
  have hva : vaField 8 w = true := supplied 21 (by decide) (by decide) (by decide)
  have hop : opField 8 w = BitVec.ofNat 4 k := by
    have mask_op : opField 8 mask = 15#4 := opField_of_match hmask (by decide)
    have base_op : opField 8 base = 0#4 := opField_of_match hbase (by decide)
    rw [opField_of_match h mask_op, opField_rowValue, base_op, BitVec.zero_or]
  rw [decodeWord, hvop, hva, hop, aField_eq_setWidth, bField_eq_setWidth]
  rfl

/-- A binary opcode's two rows: with operand B and without. -/
theorem decodeWord_of_binary_row {k : Nat} (hk : k < 16) {instr : Operand → Option Operand → Instr}
    (hinstr : ∀ a b, decodeOp (BitVec.ofNat 4 k) a b = instr a b) (w : BitVec 23) :
    (w &&& 0x7F0000#23 = 0x700000#23 ||| BitVec.ofNat 23 k <<< 16 →
      decodeWord 8 w = instr ⟨8, (w >>> 8).setWidth 8⟩ (some ⟨8, w.setWidth 8⟩)) ∧
    (w &&& 0x7F0000#23 = 0x600000#23 ||| BitVec.ofNat 23 k <<< 16 →
      decodeWord 8 w = instr ⟨8, (w >>> 8).setWidth 8⟩ none) := by
  have vb_of_match : ∀ base, w &&& 0x7F0000#23 = base ||| BitVec.ofNat 23 k <<< 16 → w.getLsbD 20 = base.getLsbD 20 :=
    fun base h => by rw [getLsbD_of_match h (by decide), getLsbD_rowValue base hk (by decide)]
  constructor <;> intro h <;> rw [decodeWord_of_match hk h (by decide) (by decide), hinstr, vb_of_match _ h] <;> rfl

/-- A word that lacks VOP or VA is invalid (30_encoding.md R86). -/
theorem decodeWord_of_not_supplied {w : BitVec 23} (h : w &&& 0x600000#23 ≠ 0x600000#23) :
    decodeWord 8 w = .aluInvalid (w.getLsbD 22) (w.getLsbD 21) := by
  have hmissing : ¬ (vopField 8 w && vaField 8 w) = true := by
    intro hboth
    obtain ⟨hvop, hva⟩ : w.getLsbD 22 = true ∧ w.getLsbD 21 = true := by simpa [vopField, vaField] using hboth
    have hmask : 0x600000#23 = BitVec.twoPow 23 22 ||| BitVec.twoPow 23 21 := by decide
    apply h
    rw [hmask, BitVec.and_or_distrib_left, BitVec.and_twoPow, BitVec.and_twoPow, if_pos hvop, if_pos hva]
  rw [decodeWord, if_neg hmissing]
  rfl

/-- Settles O7: each row's number is its opcode's in the opcode map, so that its words decode by the row's match and mask. -/
theorem wordsDecodeByMatchAndMask : Obligations.WordsDecodeByMatchAndMask := by
  refine ⟨fun row hrow w => ?_, fun row hrow w h => ?_, fun row hrow w h => ?_, fun w => decodeWord_of_not_supplied⟩
  · obtain ⟨hnumber, hinstr⟩ : row.1 < 16 ∧ ∀ a b, decodeOp (BitVec.ofNat 4 row.1) a b = row.2 a b := by
      fin_cases hrow <;> exact ⟨by decide, fun _ _ => rfl⟩
    exact decodeWord_of_binary_row hnumber hinstr w
  · obtain ⟨hnumber, hinstr⟩ : row.1 < 16 ∧ ∀ a b, decodeOp (BitVec.ofNat 4 row.1) a b = row.2 a := by
      fin_cases hrow <;> exact ⟨by decide, fun _ _ => rfl⟩
    rw [decodeWord_of_match hnumber h (by decide) (by decide), hinstr]
  · obtain ⟨hnumber, hinstr⟩ : row.1 < 16 ∧ ∀ a b, decodeOp (BitVec.ofNat 4 row.1) a b = row.2 := by
      fin_cases hrow <;> exact ⟨by decide, fun _ _ => rfl⟩
    rw [decodeWord_of_match hnumber h (by decide) (by decide), hinstr]

end Sys2Proof
end

section
/-! SUPPORT. The decoder of tokens on a packed token, and the complete token map (30_encoding.md R90 to R92); with the
decoder of words, O6, O8 and O5. -/

namespace Sys2Proof

/-! ### The fields of a token -/

/-- KIND and IDX are the whole token. -/
theorem packToken_fields (t : Token) : packToken (kindField t) (idxField t) = t := by
  apply BitVec.eq_of_getLsbD_eq
  intro i hi
  rw [getLsbD_packToken]
  split
  · simp [idxField, *]
  · simp [kindField, show i - 5 < 3 by omega, show 5 + (i - 5) = i by omega]

theorem toNat_packToken (kind : BitVec 3) (idx : BitVec 5) :
    (packToken kind idx).toNat = 32 * kind.toNat + idx.toNat := by
  show BitVec.toNat (w := 3 + 5) (kind ++ idx) = _
  rw [BitVec.toNat_append, Nat.shiftLeft_eq, Nat.mul_comm, ← Nat.two_pow_add_eq_or_of_lt idx.isLt]

theorem token_toNat (t : Token) : t.toNat = 32 * (kindField t).toNat + (idxField t).toNat := by
  rw [← toNat_packToken, packToken_fields]

/-! ### The token map -/

theorem decodeToken_packToken_var (k : BitVec 5) : decodeToken (packToken 0#3 k) = .tokVar k := by
  simp [decodeToken]

/-- The tokens below 0x20 are VAR with their index. -/
theorem decodeToken_of_lt {t : Token} (h : t.toNat < 0x20) : decodeToken t = .tokVar (BitVec.ofNat 5 t.toNat) := by
  have fields := token_toNat t
  have hkind : kindField t = 0#3 := BitVec.eq_of_toNat_eq (by rw [BitVec.toNat_ofNat]; omega)
  have hidx : idxField t = BitVec.ofNat 5 t.toNat :=
    BitVec.eq_of_toNat_eq (by rw [BitVec.toNat_ofNat]; omega)
  rw [← hidx, ← decodeToken_packToken_var, ← hkind, packToken_fields]

/-- A token that is not its KIND with IDX = 0 is no operator. -/
theorem decodeOperator_of_ne {t : Token} (h : t ≠ packToken (kindField t) 0#5) (i : Instr) :
    decodeOperator t i = .tokReserved t := by
  refine if_neg fun hidx => h ?_
  rw [← hidx, packToken_fields]

theorem tokenListed_eq_false {t : Token} : tokenListed t = false ↔
    0x20 ≤ t.toNat ∧ t ≠ 0x20#8 ∧ t ≠ 0x40#8 ∧ t ≠ 0x60#8 ∧ t ≠ 0x80#8 := by
  simp [tokenListed, and_assoc]

/-- Every token outside the map is reserved. -/
theorem decodeToken_of_not_listed {t : Token} (h : tokenListed t = false) : decodeToken t = .tokReserved t := by
  obtain ⟨ne_var, ne_and, ne_or, ne_xor, ne_not⟩ := tokenListed_eq_false.mp h
  have kind_of : ∀ {k : Nat}, (kindField t).toNat = k → kindField t = BitVec.ofNat 3 k := by
    rintro _ rfl
    rw [BitVec.ofNat_toNat, BitVec.setWidth_eq]
  unfold decodeToken
  split
  next kind =>
    have fields := token_toNat t
    omega
  next kind => exact decodeOperator_of_ne (by rwa [kind_of kind]) _
  next kind => exact decodeOperator_of_ne (by rwa [kind_of kind]) _
  next kind => exact decodeOperator_of_ne (by rwa [kind_of kind]) _
  next kind => exact decodeOperator_of_ne (by rwa [kind_of kind]) _
  next => rfl

/-- Settles O8: the tokens below 0x20 and the unlisted ones by their lemmas, the four operators by evaluation. -/
theorem tokensDecodeByTheTokenMap : Obligations.TokensDecodeByTheTokenMap := fun _ =>
  ⟨decodeToken_of_lt, fun h => h ▸ rfl, fun h => h ▸ rfl, fun h => h ▸ rfl, fun h => h ▸ rfl, decodeToken_of_not_listed⟩

/-- Settles O6, by the instruction: each form of word and each token decodes to what it was packed from. -/
theorem decodeInvertsEncode : Obligations.DecodeInvertsEncode := by
  intro n i h
  cases i with
  | aluAdd a b => exact decodeWord_packBinary n 0#4 h
  | aluSub a b => exact decodeWord_packBinary n 1#4 h
  | aluMul a b => exact decodeWord_packBinary n 2#4 h
  | aluDiv a b => exact decodeWord_packBinary n 3#4 h
  | aluAnd a b => exact decodeWord_packBinary n 4#4 h
  | aluOr a b => exact decodeWord_packBinary n 5#4 h
  | aluXor a b => exact decodeWord_packBinary n 6#4 h
  | aluNot a => exact decodeWord_packUnary n 7#4 h
  | aluShl a => exact decodeWord_packUnary n 8#4 h
  | aluShr a => exact decodeWord_packUnary n 9#4 h
  | aluRol a => exact decodeWord_packUnary n 10#4 h
  | aluRor a => exact decodeWord_packUnary n 11#4 h
  | aluUnassigned12 => exact decodeWord_packUnassigned n 12#4
  | aluUnassigned13 => exact decodeWord_packUnassigned n 13#4
  | aluUnassigned14 => exact decodeWord_packUnassigned n 14#4
  | aluUnassigned15 => exact decodeWord_packUnassigned n 15#4
  | aluInvalid vop va =>
    have missing : (vop && va) = false := by simpa only [Instr.wf, Bool.not_eq_true'] using h
    exact decodeWord_packWord_invalid n 0#4 missing false 0#n 0#n
  | tokVar k => exact decodeToken_packToken_var k
  | tokAnd => rfl
  | tokOr => rfl
  | tokXor => rfl
  | tokNot => rfl
  | tokReserved t => exact decodeToken_of_not_listed (by simpa only [Instr.wf, Bool.not_eq_true'] using h)

/-- Settles O5, by evaluating the decoder on each word and token. -/
theorem listedWordsDecode : Obligations.ListedWordsDecode := by
  unfold Obligations.ListedWordsDecode
  decide

end Sys2Proof
end

section
/-! SUPPORT. Where a step stops: neither unit's own move does, and a command's start only for a PROG shorter than PLEN
(70_reset_and_hazards.md R325; log 11). From this O49. -/

namespace Sys2Proof.Machine

theorem exec_alu_answers {i : Instr} (hi : i.isAlu = true) (s : State) : ∃ t, exec i s = .next t := by
  obtain ⟨f, he⟩ | ⟨o, records, he⟩ := exec_alu_cases hi s
  · exact ⟨_, he⟩
  · exact ⟨_, he⟩

theorem evTick_answers (s : State) : ∃ t, evTick s = .next t := by
  obtain ⟨t, ht⟩ := evTick_withEvaluatorOf s
  exact ⟨_, ht s rfl⟩

theorem evAdvance_answers {s : State} {r : Run} (hr : s.run = some r) : ∃ t, evAdvance r s = .next t := by
  have tick : evTick s = evAdvance r s := by simp only [evTick, hr]
  exact tick ▸ evTick_answers s

/-- The outcome is a next state, or the refusal of a request whose PROG is shorter than a PLEN of at most LMAX. -/
def AnswersUnlessShort (p : Params) (req : EvRequest) (o : Host.Outcome State Fault Refusal) : Prop :=
  (∃ t, o = .next t) ∨
    (o = .refused .programNotSupplied ∧ plenPort p req ≤ p.lmax ∧ req.prog.length < plenPort p req)

section
variable (req : EvRequest) (s : State)

theorem loadProgram_answersUnlessShort (k : List Token → State) :
    AnswersUnlessShort s.params req (loadProgram req s k) := by
  obtain ⟨-, he⟩ | ⟨fits, short, he⟩ | ⟨-, -, he⟩ := loadProgram_cases req s k
  · exact .inl ⟨_, he⟩
  · exact .inr ⟨he, fits, short⟩
  · exact .inl ⟨_, he⟩

theorem startTable_answersUnlessShort : AnswersUnlessShort s.params req (startTable req s) := by
  unfold startTable
  split
  · exact .inl ⟨_, rfl⟩
  · split
    · exact .inl ⟨_, rfl⟩
    · exact loadProgram_answersUnlessShort req s _

/-- A start that stops is the refusal of a short PROG, and CMD is not the reserved 3. -/
theorem evStart_answers_or_refuses : (∃ t, evStart req s = .next t) ∨
    (req.cmd ≠ 3#2 ∧ AnswersUnlessShort s.params req (evStart req s)) := by
  obtain ⟨hcmd, he⟩ | ⟨hcmd, he⟩ | ⟨hcmd, he⟩ | ⟨-, he⟩ := evStart_cases req s
  · exact .inr ⟨by rw [hcmd]; decide, he ▸ loadProgram_answersUnlessShort req s _⟩
  · exact .inr ⟨by rw [hcmd]; decide, he ▸ loadProgram_answersUnlessShort req s _⟩
  · exact .inr ⟨by rw [hcmd]; decide, he ▸ startTable_answersUnlessShort req s⟩
  · exact .inl ⟨_, he⟩

end

/-- Settles O49: of the moves of a step only the start of an evaluator command can stop. -/
theorem stepStopsOnlyForABrokenHost : Obligations.StepStopsOnlyForABrokenHost := by
  intro s
  obtain ⟨w, te, rest, -, he⟩ | ⟨rest, -, he⟩ | ⟨-, he⟩ | ⟨req, rest, hs, hr, he⟩ | ⟨rest, -, -, he⟩ | ⟨r, hr, -, he⟩ :=
    step_cases s <;> rw [he]
  · exact .inl (exec_alu_answers (decodeWord_isAlu s.params.n w.bits) _)
  · exact .inl (evTick_answers _)
  · exact .inl (evTick_answers s)
  · obtain answers | ⟨hcmd, answers | ⟨refuses, fits, short⟩⟩ := evStart_answers_or_refuses req { s with host := rest }
    · exact .inl answers
    · exact .inl answers
    · exact .inr ⟨refuses, req, rest, hs, hr, hcmd, fits, short⟩
  · exact .inl ⟨_, rfl⟩
  · exact .inl (evAdvance_answers hr)

end Sys2Proof.Machine
end

section
/-! SUPPORT. The host's operand loader (30_encoding.md R96, R97); and O52. -/

namespace Sys2Proof.Machine

theorem decimalToBinary_of_neg {value : Int} (h : value < 0) (width : Nat) :
    decimalToBinary value width = .error (.domainError value) := if_pos h

theorem decimalToBinary_natCast (value width : Nat) :
    decimalToBinary value width = .ok (BitVec.ofNat width value, decide (2 ^ width ≤ value)) :=
  if_neg (Int.not_lt.mpr (Int.natCast_nonneg value))

theorem decimalToBinary_binaryToDecimal {n : Nat} (v : BitVec n) :
    decimalToBinary (binaryToDecimal v) n = .ok (v, false) := by
  have fits : ¬ 2 ^ n ≤ v.toNat := Nat.not_le.mpr v.isLt
  rw [decimalToBinary_natCast, binaryToDecimal, BitVec.ofNat_toNat, BitVec.setWidth_eq, decide_eq_false fits]

theorem normalizeWidth_of_le {m n : Nat} (h : m ≤ n) (v : BitVec m) : normalizeWidth v n = (v.setWidth n, false) :=
  if_pos h

theorem normalizeWidth_of_lt {m n : Nat} (h : n < m) (v : BitVec m) : normalizeWidth v n = (v.setWidth n, true) :=
  if_neg (Nat.not_le.mpr h)

/-- Settles O52: the loader and the normalisation, each by its two cases. -/
theorem operandLoaderKeepsOrTruncates : Obligations.OperandLoaderKeepsOrTruncates := by
  refine ⟨fun _ width h => decimalToBinary_of_neg h width,
    fun value width => ⟨_, decimalToBinary_natCast value width, BitVec.toNat_ofNat value width⟩,
    fun _ v => decimalToBinary_binaryToDecimal v, fun m n v => ⟨fun h => ?_, fun h => ?_⟩⟩
  · rw [normalizeWidth_of_le h]
    exact ⟨BitVec.toNat_setWidth_of_le h, rfl⟩
  · rw [normalizeWidth_of_lt h]
    exact ⟨BitVec.toNat_setWidth n v, rfl⟩

end Sys2Proof.Machine
end

section
/-! SUPPORT. The full adder's truth table against plain arithmetic (40_gates_circuits.md R113); and O9. -/

namespace Sys2Proof.Machine

/-- The majority as `fullAdder_eq` writes it is the count of the bits that are 1, compared with two. -/
theorem majority_iff_two_le_toNat_add (a b c : Bool) :
    (a && b || a && c || b && c) = true ↔ 2 ≤ a.toNat + b.toNat + c.toNat := by
  cases a <;> cases b <;> cases c <;> decide

/-- Settles O9: `fullAdder_eq` gives the sum and the carry's majority, which is then counted. -/
theorem fullAdderAddsThreeBits : Obligations.FullAdderAddsThreeBits := by
  intro a b cin
  rw [fullAdder_eq]
  exact ⟨rfl, majority_iff_two_le_toNat_add a b cin⟩

end Sys2Proof.Machine
end

section
/-! SUPPORT. The ripple-carry adder and what is built from it, in the arithmetic of vectors (41_arithmetic.md R130 to R132);
and O10, O11 and O12. -/

namespace Sys2Proof.Machine

/-! ### add (R130) -/

theorem carryInto_eq_carry {m : Nat} (a b : BitVec m) (k : Nat) : carryInto a b k = BitVec.carry k a b false := by
  simp [carryInto, BitVec.carry]

theorem rippleAdd_carry {m : Nat} (a b : BitVec m) (k : Nat) : (rippleAdd a b k).2 = carryInto a b k := by
  rw [carryInto_eq_carry]
  induction k with
  | zero => simp [rippleAdd]
  | succ k ih => simp [rippleAdd, ih, BitVec.carry_succ, Bool.atLeastTwo]

theorem rippleAdd_sum {m : Nat} (a b : BitVec m) {k : Nat} (hk : k ≤ m) :
    (rippleAdd a b k).1 = (a + b).setWidth k := by
  induction k with
  | zero => exact BitVec.eq_of_zero_length rfl
  | succ k ih =>
    have sum_bit : (a + b).getLsbD k = (a.getLsbD k ^^ b.getLsbD k ^^ (rippleAdd a b k).2) := by
      rw [BitVec.getLsbD_add (by omega), rippleAdd_carry, carryInto_eq_carry, Bool.xor_assoc]
    rw [BitVec.setWidth_succ, sum_bit, ← ih (by omega)]
    simp [rippleAdd]

theorem engineAdd_eq {m : Nat} (a b : BitVec m) :
    engineAdd a b = (a + b, decide (2 ^ m ≤ a.toNat + b.toNat)) := by
  have sum : (engineAdd a b).1 = a + b := (rippleAdd_sum a b (Nat.le_refl m)).trans (BitVec.setWidth_eq _)
  have carry : (engineAdd a b).2 = decide (2 ^ m ≤ a.toNat + b.toNat) := by
    rw [engineAdd, rippleAdd_carry, carryInto, Nat.mod_eq_of_lt a.isLt, Nat.mod_eq_of_lt b.isLt]
  exact Prod.ext sum carry

/-- Settles O10: the adder's sum is the sum of vectors, whose unsigned and signed readings are known. -/
theorem rippleAddLaws : Obligations.RippleAddLaws := by
  intro m a b
  rw [engineAdd_eq]
  exact ⟨BitVec.toNat_add a b, decide_eq_true_iff, BitVec.toInt_add a b⟩

/-! ### negate (R131) -/

@[simp] theorem complement_eq {m : Nat} (a : BitVec m) : complement a = ~~~a := by
  apply BitVec.eq_of_getLsbD_eq
  intro i _
  rw [complement, getLsbD_tabulate, BitVec.getLsbD_not, gateNot_eq]

@[simp] theorem oneVec_eq (m : Nat) : oneVec m = 1#m := by
  apply BitVec.eq_of_getLsbD_eq
  intro i hi
  simp only [oneVec, getLsbD_tabulate, BitVec.getLsbD_one, hi, Nat.zero_lt_of_lt hi]
  rfl

@[simp] theorem engineNegate_eq {m : Nat} (a : BitVec m) : engineNegate a = -a := by
  rw [engineNegate, complement_eq, oneVec_eq, engineAdd_eq, BitVec.neg_eq_not_add]

/-- Settles O11: negate is the negation of vectors. -/
theorem negateLaws : Obligations.NegateLaws := by
  intro m a
  have most_negative : BitVec.ofNat m (2 ^ (m - 1)) = BitVec.intMin m :=
    BitVec.eq_of_toNat_eq (by rw [BitVec.toNat_ofNat, BitVec.intMin, BitVec.toNat_twoPow])
  simp only [engineNegate_eq, most_negative]
  exact ⟨BitVec.toNat_neg a, BitVec.neg_zero m, fun _ => BitVec.neg_intMin, BitVec.neg_neg⟩

/-! ### subtract (R132) -/

@[simp] theorem sign_eq_msb {m : Nat} (a : BitVec m) : sign a = a.msb := (BitVec.msb_eq_getLsbD_last a).symm

@[simp] theorem engineSubtract_diff {m : Nat} (mode : SubBorrowMode) (a b : BitVec m) :
    (engineSubtract mode a b).diff = a - b := by
  simp [engineSubtract, engineAdd_eq, BitVec.sub_eq_add_neg]

/-- Adding the negation carries out unless the subtrahend is larger; adding the negation of zero never does, the one case
in which the two borrow modes differ. -/
theorem two_pow_le_toNat_add_neg {m : Nat} (a b : BitVec m) :
    2 ^ m ≤ a.toNat + (-b).toNat ↔ ¬ (a.toNat < b.toNat ∨ b = 0#m) := by
  by_cases hb : b = 0#m
  · simp [hb, a.isLt]
  · have pos : 0 < b.toNat := Nat.pos_of_ne_zero fun h => hb (BitVec.eq_of_toNat_eq h)
    rw [BitVec.toNat_neg, Nat.mod_eq_of_lt (by omega)]
    simp only [hb, or_false]
    omega

theorem engineSubtract_borrow {m : Nat} (mode : SubBorrowMode) (a b : BitVec m) :
    (engineSubtract mode a b).borrow = borrowLaw mode a b := by
  cases mode with
  | literal =>
    simp only [engineSubtract, engineNegate_eq, engineAdd_eq, borrowOf, gateNot_eq, borrowLaw,
      two_pow_le_toNat_add_neg, decide_not, Bool.not_not, Bool.decide_or]
  | compare => rfl

theorem ssubOverflow_eq_signedOverflow {m : Nat} (a b : BitVec m) :
    a.ssubOverflow b = signedOverflow m (a.toInt - b.toInt) := Bool.or_comm _ _

/-- The sign rule of R132 sees exactly the differences that leave the two's-complement range. -/
theorem engineSubtract_overflow {m : Nat} (mode : SubBorrowMode) (a b : BitVec m) :
    (engineSubtract mode a b).overflow = signedOverflow m (a.toInt - b.toInt) := by
  have sign_rule : (engineSubtract mode a b).overflow = ((a.msb ^^ b.msb) && (a - b).msb == b.msb) := by
    simp [engineSubtract, engineAdd_eq, BitVec.sub_eq_add_neg]
  rw [sign_rule, ← ssubOverflow_eq_signedOverflow, BitVec.ssubOverflow_eq]
  cases a.msb <;> cases b.msb <;> simp

theorem toNat_sub_eq_emod {m : Nat} (a b : BitVec m) : ((a - b).toNat : Int) = ((a.toNat : Int) - b.toNat) % 2 ^ m := by
  have hb : b.toNat ≤ 2 ^ m := b.isLt.le
  rw [BitVec.toNat_sub']
  push_cast [hb]
  rw [show (a.toNat : Int) + (2 ^ m - b.toNat) = a.toNat - b.toNat + 2 ^ m by ring, Int.add_emod_right]

/-- Settles O12: difference, borrow and overflow each by its law; the two modes differ in the literal borrow's second
disjunct, which excludes the first. -/
theorem subtractLaws : Obligations.SubtractLaws := by
  intro n _ a b mode
  simp only [engineSubtract_diff, engineSubtract_overflow, engineSubtract_borrow]
  refine ⟨toNat_sub_eq_emod a b, ?_, ?_, decide_eq_true_iff, ?_⟩
  · simp [signedOverflow]
  · simp [borrowLaw]
  · by_cases hb : b = 0#n <;> simp [borrowLaw, hb]

end Sys2Proof.Machine
end

section
/-! SUPPORT. The gate chains of the flags against the result they read (44_alu_dispatch_flags.md R197 to R200), and so the
commit in plain arithmetic; from this O17 and O18. -/

namespace Sys2Proof.Machine

/-! ### The chains -/

/-- An OR chain is 0 exactly when every bit it reads is. -/
theorem chain_or_eq_false (f : Nat → Bool) (n : Nat) :
    chain (fun v i => gateOr v (f i)) false n = false ↔ ∀ i < n, f i = false := by
  induction n with
  | zero => simp
  | succ n ih => rw [chain_succ, gateOr_eq, Bool.or_eq_false_iff, ih, Nat.forall_lt_succ_right]

/-- The chain of AND of NOT is the negated OR chain. -/
theorem chain_and_not_eq (f : Nat → Bool) (n : Nat) :
    chain (fun z i => gateAnd z (gateNot (f i))) true n = !chain (fun v i => gateOr v (f i)) false n := by
  induction n with
  | zero => rfl
  | succ n ih => rw [chain_succ, ih, chain_succ, gateAnd_eq, gateNot_eq, gateOr_eq, Bool.not_or]

/-- An XOR chain is the parity of the number of bits that are 1. -/
theorem chain_xor_eq (f : Nat → Bool) (n : Nat) :
    chain (fun p i => gateXor p (f i)) false n = (((List.range n).filter fun i => f i).length % 2 == 1) := by
  induction n with
  | zero => rfl
  | succ n ih =>
    rw [chain_succ, ih, gateXor_eq, List.range_succ, List.filter_append, List.length_append]
    cases hf : f n with
    | false => simp [hf]
    | true =>
      have flips : ∀ k : Nat, (k + 1) % 2 = 1 ↔ ¬ k % 2 = 1 := by omega
      rw [Bool.eq_iff_iff]
      simp [hf, flips]

/-! ### The flags -/

theorem zeroFlag_eq {n : Nat} (r : BitVec n) : zeroFlag r = decide (r = 0#n) := by
  rw [zeroFlag, chain_and_not_eq, Bool.eq_iff_iff, Bool.not_eq_true', chain_or_eq_false, decide_eq_true_iff]
  exact ⟨fun h => BitVec.eq_of_getLsbD_eq fun i hi => by rw [h i hi, BitVec.getLsbD_zero],
    fun h i _ => by rw [h, BitVec.getLsbD_zero]⟩

theorem parityFlag_eq {n : Nat} (r : BitVec n) : parityFlag r = oddlySet r := chain_xor_eq (r.getLsbD ·) n

theorem flagsOf_eq_resultFlags {n : Nat} (r : BitVec n) (c v : Bool) : flagsOf r c v = resultFlags r c v := by
  rw [flagsOf, zeroFlag_eq, parityFlag_eq, signFlag, ← BitVec.msb_eq_getLsbD_last, resultFlags]

/-- The commit of a path is the completed instruction of the statements. -/
theorem aluCommit_eq_aluDone {n : Nat} (o : PathOut n) (records : List AluRecord) (s : State) :
    aluCommit o records s = aluDone s o.result o.cflag o.vflag o.event records := by
  rw [aluCommit, flagsOf_eq_resultFlags, aluDone]

/-! ### ADD and SUB -/

theorem exec_aluAdd (a b : Operand) (s : State) : exec (.aluAdd a (some b)) s =
    .next (aluCommit (addPath s.params (operandOf s a) (operandOf s b))
      (addRecords (operandOf s a) (operandOf s b)) s) := rfl

theorem exec_aluSub (a b : Operand) (s : State) : exec (.aluSub a (some b)) s =
    .next (aluCommit (subPath s.params (operandOf s a) (operandOf s b))
      (subRecords (operandOf s a) (operandOf s b)) s) := rfl

theorem saddOverflow_eq_signedOverflow {n : Nat} (a b : BitVec n) :
    a.saddOverflow b = signedOverflow n (a.toInt + b.toInt) := Bool.or_comm _ _

/-- The sign rule of R140 sees exactly the sums that leave the two's-complement range. -/
theorem addOverflow_eq_law {n : Nat} (mode : AddVMode) (a b : BitVec n) :
    addOverflow mode a b (a + b) = addOverflowLaw mode a b := by
  cases mode with
  | zero => rfl
  | signed =>
    rw [addOverflowLaw, ← saddOverflow_eq_signedOverflow, BitVec.saddOverflow_eq]
    cases ha : a.msb <;> cases hb : b.msb <;> simp [addOverflow, ha, hb]

theorem addPath_eq {n : Nat} (p : Params) (a b : BitVec n) : addPath p a b =
    { result := a + b, cflag := decide (2 ^ n ≤ a.toNat + b.toNat), vflag := addOverflowLaw p.addVMode a b,
      event := .none } := by
  rw [addPath, engineAdd_eq, addOverflow_eq_law]

theorem subPath_eq {n : Nat} (p : Params) (a b : BitVec n) : subPath p a b =
    { result := a - b, cflag := borrowLaw p.subBorrowMode a b, vflag := signedOverflow n (a.toInt - b.toInt),
      event := .none } := by
  rw [subPath, engineSubtract_diff, engineSubtract_borrow, engineSubtract_overflow]

/-- Settles O17: ADD commits its path, whose outputs are those of the law. -/
theorem addCompletes : Obligations.AddCompletes := fun s a b =>
  ⟨_, by rw [exec_aluAdd, aluCommit_eq_aluDone, addPath_eq]⟩

/-- Settles O18: SUB commits its path, whose outputs are those of the laws of subtract. -/
theorem subCompletes : Obligations.SubCompletes := fun s a b =>
  ⟨_, by rw [exec_aluSub, aluCommit_eq_aluDone, subPath_eq]⟩

end Sys2Proof.Machine
end

section
/-! SUPPORT. The shift-and-add multiplier in plain arithmetic (41_arithmetic.md R133): after `k` iterations the partial
product is that of the multiplier's low `k` bits; from this O13 and O19. -/

namespace Sys2Proof.Machine

theorem shlIn_eq_shiftConcat {m : Nat} (x : BitVec m) (low : Bool) : shlIn x low = x.shiftConcat low := by
  apply BitVec.eq_of_getLsbD_eq
  intro i _
  rw [shlIn, getLsbD_tabulate, BitVec.getLsbD_shiftConcat]

theorem toNat_shlIn {m : Nat} (x : BitVec m) (low : Bool) :
    (shlIn x low).toNat = (2 * x.toNat + low.toNat) % 2 ^ m := by
  rw [shlIn_eq_shiftConcat, BitVec.shiftConcat, BitVec.truncate_eq_setWidth, BitVec.toNat_setWidth,
    BitVec.toNat_concat, Nat.mul_comm]

/-- The low `k + 1` bits are the low `k` bits and bit `k`. -/
theorem toNat_mod_two_pow_succ {n : Nat} (b : BitVec n) (k : Nat) :
    b.toNat % 2 ^ (k + 1) = b.toNat % 2 ^ k + 2 ^ k * (b.getLsbD k).toNat := by
  rw [← BitVec.testBit_toNat, Nat.toNat_testBit, Nat.pow_succ, Nat.mod_mul]

theorem multiplyLoop_wa {n : Nat} (a b : BitVec n) (k : Nat) :
    (multiplyLoop a b k).2 = BitVec.ofNat (2 * n) (a.toNat * 2 ^ k) := by
  apply BitVec.eq_of_toNat_eq
  rw [BitVec.toNat_ofNat]
  induction k with
  | zero => simp [multiplyLoop]
  | succ k ih =>
    rw [multiplyLoop, toNat_shlIn, ih]
    simp only [Bool.toNat_false, Nat.add_zero, Nat.mul_mod_mod]
    ring_nf

theorem multiplyLoop_acc {n : Nat} (a b : BitVec n) (k : Nat) :
    (multiplyLoop a b k).1 = BitVec.ofNat (2 * n) (a.toNat * (b.toNat % 2 ^ k)) := by
  induction k with
  | zero => simp [multiplyLoop, Nat.mod_one]
  | succ k ih =>
    rw [multiplyLoop, engineAdd_eq, ih, multiplyLoop_wa, toNat_mod_two_pow_succ]
    cases b.getLsbD k with
    | false => simp
    | true => simp [← BitVec.ofNat_add, Nat.mul_add]

/-- Settles O13: after `n` iterations the partial product is the product, which fits in `2 n` bits. -/
theorem multiplyIsExact : Obligations.MultiplyIsExact := by
  intro n a b
  have fits : a.toNat * b.toNat < 2 ^ (2 * n) := by
    rw [Nat.two_mul, Nat.pow_add]
    exact Nat.mul_lt_mul'' a.isLt b.isLt
  rw [engineMultiply, multiplyLoop_acc, Nat.mod_eq_of_lt b.isLt, BitVec.toNat_ofNat, Nat.mod_eq_of_lt fits]

/-! ### MUL -/

theorem exec_aluMul (a b : Operand) (s : State) : exec (.aluMul a (some b)) s =
    .next (aluCommit (mulPath (operandOf s a) (operandOf s b)) (mulRecords (operandOf s a) (operandOf s b)) s) := rfl

/-- A product has a bit in its high half exactly when it does not fit in the low half. -/
theorem highHalfSet_eq {n : Nat} (p : BitVec (2 * n)) : highHalfSet p = decide (2 ^ n ≤ p.toNat) := by
  have high_clear : highHalfSet p = false ↔ p.toNat < 2 ^ n := by
    rw [highHalfSet, chain_or_eq_false]
    refine ⟨fun h => Nat.lt_pow_two_of_testBit _ fun i hi => ?_, fun h i _ => ?_⟩
    · rw [BitVec.testBit_toNat]
      by_cases hi' : i - n < n
      · simpa [hi] using h (i - n) hi'
      · exact BitVec.getLsbD_of_ge p i (by omega)
    · rw [← BitVec.testBit_toNat]
      exact Nat.testBit_lt_two_pow (h.trans_le (Nat.pow_le_pow_right (by decide) (Nat.le_add_right n i)))
  rw [← Bool.not_inj_iff, Bool.eq_iff_iff]
  simp [high_clear]

theorem mulPath_eq {n : Nat} (a b : BitVec n) : mulPath a b =
    { result := a * b, cflag := false, vflag := decide (2 ^ n ≤ a.toNat * b.toNat), event := .none } := by
  have low_half : (engineMultiply a b).setWidth n = a * b := by
    apply BitVec.eq_of_toNat_eq
    rw [BitVec.toNat_setWidth, multiplyIsExact, BitVec.toNat_mul]
  rw [mulPath, low_half, highHalfSet_eq, multiplyIsExact]

/-- Settles O19: MUL commits its path, whose outputs are the exact product's two halves. -/
theorem mulCompletes : Obligations.MulCompletes := fun s a b =>
  ⟨_, by rw [exec_aluMul, aluCommit_eq_aluDone, mulPath_eq]⟩

end Sys2Proof.Machine
end

section
/-! SUPPORT. The divider's registers as numbers are those of the loop in plain arithmetic, at every accumulator width of at
least the operands' (41_arithmetic.md R134). -/

namespace Sys2Proof.Machine

/-! ### One iteration in plain arithmetic -/

/-- The registers that an iteration leaves. -/
def DivideRow.regs (row : DivideRow) : Nat × Nat := if row.commit then (row.ap, row.q + 1) else (row.acc, row.q)

theorem divideRegs_succ (m n a b k : Nat) :
    divideRegs m n a b (k + 1) = (divideRow m n b (divideRegs m n a b k)).regs := rfl

/-- The divider's two registers as numbers. -/
def DivRegs.values {m n : Nat} (r : DivRegs m n) : Nat × Nat := (r.acc.toNat, r.q.toNat)

section
variable {m n : Nat}

/-- What stands above the low `n - 1` bits of a number of `n` bits is one bit. -/
theorem div_two_pow_pred_lt_two {q : Nat} (hq : q < 2 ^ n) : q / 2 ^ (n - 1) < 2 := by
  rw [Nat.div_lt_iff_lt_mul (Nat.two_pow_pos _), ← Nat.pow_succ']
  exact hq.trans_le (Nat.pow_le_pow_right (by decide) (by omega))

theorem toNat_msb (x : BitVec n) : x.msb.toNat = x.toNat / 2 ^ (n - 1) := by
  rw [BitVec.msb_eq_getLsbD_last, ← BitVec.testBit_toNat, Nat.toNat_testBit,
    Nat.mod_eq_of_lt (div_two_pow_pred_lt_two x.isLt)]

theorem toNat_shlIn_true (hn : 0 < n) (x : BitVec n) : (shlIn x true).toNat = 2 * x.toNat % 2 ^ n + 1 := by
  obtain ⟨k, rfl⟩ := Nat.exists_eq_add_one.mpr hn
  have halved : (2 * x.toNat + 1) / 2 = x.toNat := by omega
  rw [toNat_shlIn, Nat.pow_succ', Nat.mul_mod_mul_left, Bool.toNat_true, Nat.mod_mul, halved]
  omega

theorem divShift_values (b : Nat) (r : DivRegs m n) : (divShift r).values =
    ((divideRow m n b r.values).acc, (divideRow m n b r.values).q) := by
  simp [DivRegs.values, divShift, divideRow, toNat_shlIn, toNat_msb]

theorem toNat_divTrial (hm : n ≤ m) (b : BitVec n) (r : DivRegs m n) :
    (divTrial b (divShift r)).toNat = (divideRow m n b.toNat r.values).ap := by
  obtain ⟨hacc, -⟩ := Prod.mk.inj (divShift_values b.toNat r)
  rw [divTrial, engineSubtract_diff, BitVec.toNat_sub', BitVec.toNat_setWidth_of_le hm, hacc]
  rfl

theorem sign_divTrial (hm : n ≤ m) (b : BitVec n) (r : DivRegs m n) :
    sign (divTrial b (divShift r)) = !(divideRow m n b.toNat r.values).commit := by
  rw [sign_eq_msb, BitVec.msb_eq_decide, toNat_divTrial hm, divideRow, ← decide_not, Bool.eq_iff_iff]
  simp

theorem divIterate_values (hn : 0 < n) (hm : n ≤ m) (b : BitVec n) (r : DivRegs m n) :
    (divIterate b r).values = (divideRow m n b.toNat r.values).regs := by
  rw [divIterate, sign_divTrial hm, DivideRow.regs]
  cases (divideRow m n b.toNat r.values).commit with
  | false => simpa using divShift_values b.toNat r
  | true =>
    have hq : (shlIn r.q true).toNat = (divideRow m n b.toNat r.values).q + 1 := toNat_shlIn_true hn r.q
    simp [DivRegs.values, toNat_divTrial hm, hq]

theorem divideLoop_values (hn : 0 < n) (hm : n ≤ m) (a b : BitVec n) (k : Nat) :
    (divideLoop m a b k).values = divideRegs m n a.toNat b.toNat k := by
  induction k with
  | zero => simp [divideLoop, divideRegs, DivRegs.values]
  | succ k ih => rw [divideLoop, divIterate_values hn hm, ih, divideRegs_succ]

end

end Sys2Proof.Machine
end

section
/-! SUPPORT. Restoring division in plain arithmetic: exact for every divisor that leaves the accumulator's sign bit free, and
wrong about the dividend 0 for every other (41_arithmetic.md R138); from this O14, O15, O20 and O21. -/

namespace Sys2Proof.Machine

/-! ### Inside the band -/

/-- A trial difference of a partial remainder below twice the divisor lies in the accumulator's signed range, so its sign
tells whether the divisor fits: the iteration is one digit of long division. -/
theorem divideRow_regs_of_band {m n b rem q : Nat} (hm : 0 < m) (hb : b ≤ 2 ^ (m - 1)) (hrem : rem < b) (hq : q < 2 ^ n) :
    (divideRow m n b (rem, q)).regs =
      ((2 * rem + q / 2 ^ (n - 1)) % b, 2 * q % 2 ^ n + (2 * rem + q / 2 ^ (n - 1)) / b) := by
  have top : q / 2 ^ (n - 1) < 2 := div_two_pow_pred_lt_two hq
  have width : 2 ^ m = 2 * 2 ^ (m - 1) := (mul_pow_sub_one hm.ne' 2).symm
  have fits : (2 * rem + q / 2 ^ (n - 1)) % 2 ^ m = 2 * rem + q / 2 ^ (n - 1) := Nat.mod_eq_of_lt (by omega)
  simp only [divideRow, DivideRow.regs, fits]
  generalize hc : 2 * rem + q / 2 ^ (n - 1) = c
  by_cases hfit : b ≤ c
  · have trial : (c + (2 ^ m - b)) % 2 ^ m = c - b := by
      rw [show c + (2 ^ m - b) = c - b + 2 ^ m by omega, Nat.add_mod_right, Nat.mod_eq_of_lt (by omega)]
    have digit : c / b = 1 := Nat.div_eq_of_lt_le (by omega) (by omega)
    have left : c % b = c - b := by rw [Nat.mod_eq_sub_mod hfit, Nat.mod_eq_of_lt (by omega)]
    rw [trial, digit, left, if_pos (decide_eq_true (by omega))]
  · have trial : (c + (2 ^ m - b)) % 2 ^ m = c + (2 ^ m - b) := Nat.mod_eq_of_lt (by omega)
    have digit : c / b = 0 := Nat.div_eq_of_lt (by omega)
    have left : c % b = c := Nat.mod_eq_of_lt (by omega)
    rw [trial, digit, left, if_neg (mt of_decide_eq_true (by omega)), Nat.add_zero]

/-- The pair of registers holds the dividend's `d + 1` unread bits, `bit` on top, above the `k` quotient bits found so far. -/
theorem unread_bits_shift {d k bit low t : Nat} (hlow : low < 2 ^ d) (ht : t < 2 ^ k) :
    ((bit * 2 ^ d + low) * 2 ^ k + t) / 2 ^ (d + k) = bit ∧
      2 * ((bit * 2 ^ d + low) * 2 ^ k + t) % 2 ^ (d + k + 1) = low * 2 ^ (k + 1) + 2 * t := by
  have below : low * 2 ^ k + t < 2 ^ (d + k) := by
    calc low * 2 ^ k + t < (low + 1) * 2 ^ k := by rw [Nat.add_one_mul]; omega
      _ ≤ 2 ^ d * 2 ^ k := Nat.mul_le_mul_right _ hlow
      _ = 2 ^ (d + k) := (Nat.pow_add 2 d k).symm
  have split : (bit * 2 ^ d + low) * 2 ^ k + t = low * 2 ^ k + t + 2 ^ (d + k) * bit := by ring
  constructor
  · rw [split, Nat.add_mul_div_left _ _ (Nat.two_pow_pos _), Nat.div_eq_of_lt below, Nat.zero_add]
  · rw [split, Nat.pow_succ', Nat.mul_mod_mul_left, Nat.add_mul_mod_self_left, Nat.mod_eq_of_lt below]
    ring

/-- Long division: after `k` iterations the registers hold the remainder and the quotient of the dividend's top `k` bits,
and above the quotient the bits not yet read. -/
theorem divideRegs_of_band {m n a b : Nat} (hm : 0 < m) (hb : b ≤ 2 ^ (m - 1)) (hpos : 0 < b) (ha : a < 2 ^ n) {k : Nat}
    (hk : k ≤ n) : divideRegs m n a b k =
      (a / 2 ^ (n - k) % b, a % 2 ^ (n - k) * 2 ^ k + a / 2 ^ (n - k) / b) := by
  induction k with
  | zero => simp [divideRegs, Nat.div_eq_of_lt ha, Nat.mod_eq_of_lt ha]
  | succ k ih =>
    obtain ⟨d, rfl⟩ : ∃ d, n = d + k + 1 := ⟨n - (k + 1), by omega⟩
    have hd : d + k + 1 - k = d + 1 := by omega
    have hd' : d + k + 1 - (k + 1) = d := by omega
    rw [divideRegs_succ, ih (by omega), hd, hd']
    generalize hx : a / 2 ^ (d + 1) = x
    generalize hbit : a / 2 ^ d % 2 = bit
    have hlow : a % 2 ^ d < 2 ^ d := Nat.mod_lt _ (Nat.two_pow_pos d)
    have unread : a % 2 ^ (d + 1) = bit * 2 ^ d + a % 2 ^ d := by
      rw [Nat.pow_succ, Nat.mod_mul, hbit]
      ring
    have next : a / 2 ^ d = 2 * x + bit := by
      rw [← hx, ← hbit, Nat.pow_succ, ← Nat.div_div_eq_div_mul, Nat.div_add_mod]
    have ht : x / b < 2 ^ k := by
      refine (Nat.div_le_self x b).trans_lt ?_
      rw [← hx, Nat.div_lt_iff_lt_mul (Nat.two_pow_pos _), ← Nat.pow_add]
      exact ha.trans_eq (by ring)
    obtain ⟨top, rest⟩ := unread_bits_shift (bit := bit) hlow ht
    have hq : (bit * 2 ^ d + a % 2 ^ d) * 2 ^ k + x / b < 2 ^ (d + k + 1) := by
      rw [Nat.pow_succ', ← Nat.div_lt_iff_lt_mul (Nat.two_pow_pos _), top, ← hbit]
      exact Nat.mod_lt _ (by decide)
    have digit : 2 * x + bit = 2 * (x % b) + bit + b * (2 * (x / b)) := by
      have := Nat.mod_add_div x b
      linarith
    rw [unread, divideRow_regs_of_band hm hb (Nat.mod_lt x hpos) hq, Nat.add_sub_cancel, top, rest, next, digit,
      Nat.add_mul_mod_self_left, Nat.add_mul_div_left _ _ hpos]
    congr 1
    ring

/-! ### Outside the band -/

/-- With a divisor above 2^(n-1) the first trial difference of the dividend 0 looks positive and is committed; its quotient
bit then moves up to the top. -/
theorem divideRegs_zero_outside_band {n b : Nat} (hb : 2 ^ (n - 1) < b) (hbn : b < 2 ^ n) {k : Nat} (hk : k < n) :
    2 ^ k ≤ (divideRegs n n 0 b (k + 1)).2 ∧ (divideRegs n n 0 b (k + 1)).2 < 2 ^ (k + 1) := by
  induction k with
  | zero =>
    have width : 2 ^ n = 2 * 2 ^ (n - 1) := (mul_pow_sub_one hk.ne' 2).symm
    have trial : (2 ^ n - b) % 2 ^ n = 2 ^ n - b := Nat.mod_eq_of_lt (by omega)
    have committed : 2 ^ n - b < 2 ^ (n - 1) := by omega
    simp [divideRegs, divideRow, trial, committed]
  | succ k ih =>
    obtain ⟨low, high⟩ := ih (by omega)
    rw [divideRegs_succ]
    generalize divideRegs n n 0 b (k + 1) = regs at low high
    have room : 2 * 2 ^ (k + 1) ≤ 2 ^ n := by
      rw [← Nat.pow_succ']
      exact Nat.pow_le_pow_right (by decide) hk
    have hq : (divideRow n n b regs).q = 2 * regs.2 := Nat.mod_eq_of_lt (by omega)
    have hsucc := Nat.pow_succ' (m := 2) (n := k)
    have hsucc' := Nat.pow_succ' (m := 2) (n := k + 1)
    rw [DivideRow.regs]
    split <;> simp only [hq] <;> omega

/-! ### divide (R134) -/

theorem engineDivide_zero {n : Nat} (m : Nat) (a : BitVec n) :
    engineDivide m a 0#n = { quotient := 0#n, remainder := 0#n, dz := true } := if_pos rfl

theorem engineDivide_of_ne_zero {n : Nat} (m : Nat) (a : BitVec n) {b : BitVec n} (hb : b ≠ 0#n) :
    engineDivide m a b =
      { quotient := (divideLoop m a b n).q, remainder := (divideLoop m a b n).acc.setWidth n, dz := false } := if_neg hb

section
variable {n : Nat} {b : BitVec n} (hb : b ≠ 0#n)
include hb

theorem toNat_pos_of_ne_zero : 0 < b.toNat := Nat.pos_of_ne_zero fun h => hb (BitVec.eq_of_toNat_eq h)

theorem width_pos_of_ne_zero : 0 < n := Nat.pos_of_ne_zero fun h => hb (by subst h; exact BitVec.eq_of_zero_length rfl)

/-- The engine divides exactly where the divisor leaves the accumulator's sign bit free. -/
theorem engineDivide_of_band {m : Nat} (hm : n ≤ m) (hband : b.toNat ≤ 2 ^ (m - 1)) (a : BitVec n) :
    engineDivide m a b = { quotient := a / b, remainder := a % b, dz := false } := by
  have hn := width_pos_of_ne_zero hb
  have final : (divideLoop m a b n).values = (a.toNat % b.toNat, a.toNat / b.toNat) := by
    rw [divideLoop_values hn hm, divideRegs_of_band (hn.trans_le hm) hband (toNat_pos_of_ne_zero hb) a.isLt le_rfl]
    simp [Nat.mod_one]
  obtain ⟨hacc, hq⟩ := Prod.mk.inj final
  have quotient : (divideLoop m a b n).q = a / b := BitVec.eq_of_toNat_eq (hq.trans BitVec.toNat_udiv.symm)
  have remainder : (divideLoop m a b n).acc.setWidth n = a % b := by
    apply BitVec.eq_of_toNat_eq
    rw [BitVec.toNat_setWidth, hacc, ← BitVec.toNat_umod, Nat.mod_eq_of_lt (a % b).isLt]
  rw [engineDivide_of_ne_zero m a hb, quotient, remainder]

/-- With an accumulator of the operands' width and a divisor above 2^(n-1) the quotient of 0 is not 0. -/
theorem engineDivide_zero_outside_band (hband : 2 ^ (n - 1) < b.toNat) :
    (engineDivide n 0#n b).quotient.toNat ≠ 0 := by
  have hn := width_pos_of_ne_zero hb
  obtain ⟨low, -⟩ := divideRegs_zero_outside_band hband b.isLt (k := n - 1) (by omega)
  rw [Nat.sub_add_cancel hn] at low
  obtain ⟨-, hq⟩ := Prod.mk.inj (divideLoop_values hn le_rfl 0#n b n)
  rw [engineDivide_of_ne_zero n _ hb]
  exact ((Nat.two_pow_pos _).trans_le (low.trans_eq hq.symm)).ne'

end

/-- Settles O14: a divisor of `n` bits leaves the sign bit of `n + 1` bits free. -/
theorem divideWideIsExact : Obligations.DivideWideIsExact := by
  intro n a b hb
  rw [engineDivide_of_band hb (Nat.le_succ n) b.isLt.le]
  exact ⟨BitVec.toNat_udiv, BitVec.toNat_umod, rfl⟩

/-- Settles O15: inside the band by `engineDivide_of_band`, outside it the dividend 0 refutes the quotient. -/
theorem divideNarrowIsExactInItsBand : Obligations.DivideNarrowIsExactInItsBand := by
  intro n b hb
  refine ⟨fun exact_for_all => ?_, fun hband a => ?_⟩
  · by_contra hband
    obtain ⟨quotient, -⟩ := exact_for_all 0#n
    refine engineDivide_zero_outside_band hb (Nat.not_le.mp hband) ?_
    rw [quotient, BitVec.toNat_zero, Nat.zero_div]
  · rw [engineDivide_of_band hb le_rfl hband]
    exact ⟨BitVec.toNat_udiv, BitVec.toNat_umod⟩

/-! ### DIV -/

theorem exec_aluDiv (a b : Operand) (s : State) : exec (.aluDiv a (some b)) s =
    .next (aluCommit (divPath s.params (operandOf s a) (operandOf s b))
      (divRecords (accWidth s.params s.params.n) (operandOf s a) (operandOf s b)) s) := rfl

theorem le_accWidth (p : Params) (n : Nat) : n ≤ accWidth p n := by
  unfold accWidth
  split
  · exact le_rfl
  · exact Nat.le_succ n

/-- R138's condition on the divisor, for either accumulator: it leaves the accumulator's sign bit free. -/
theorem band_of_wide_or_le {p : Params} {n : Nat} {b : BitVec n}
    (h : p.divAccWidth = .wide ∨ b.toNat ≤ 2 ^ (n - 1)) : b.toNat ≤ 2 ^ (accWidth p n - 1) := by
  rcases h with wide | band
  · simpa only [accWidth, wide, Nat.add_sub_cancel] using b.isLt.le
  · exact band.trans (Nat.pow_le_pow_right (by decide) (Nat.sub_le_sub_right (le_accWidth p n) 1))

theorem divPath_of_ne_zero {n : Nat} (p : Params) (a : BitVec n) {b : BitVec n} (hb : b ≠ 0#n) : divPath p a b =
    { result := (engineDivide (accWidth p n) a b).quotient, cflag := false, vflag := false, event := .none } := by
  rw [divPath, engineDivide_of_ne_zero _ a hb]
  rfl

theorem divPath_zero {n : Nat} (p : Params) (a : BitVec n) :
    divPath p a 0#n = { result := 0#n, cflag := false, vflag := false, event := .divByZero } := by
  rw [divPath, engineDivide_zero]
  rfl

theorem divRecords_zero {n : Nat} (m : Nat) (a : BitVec n) : divRecords m a 0#n = [.divByZero] := if_pos rfl

/-- A zero result raises Zero and no other flag of its own. -/
theorem resultFlags_zero (n : Nat) (c v : Bool) :
    resultFlags 0#n c v = { z := true, c := c, v := v, s := false, p := false } := by
  simp [resultFlags, oddlySet, setBits]

/-- Settles O20: DIV commits the engine's quotient, which is the true one inside the band. -/
theorem divCompletes : Obligations.DivCompletes := by
  intro s a b hb
  refine ⟨_, _, by rw [exec_aluDiv, aluCommit_eq_aluDone, divPath_of_ne_zero _ _ hb], rfl, fun h => ?_⟩
  rw [engineDivide_of_band hb (le_accWidth _ _) (band_of_wide_or_le h)]

/-- Settles O21: DIV by zero commits the path and the record of the short circuit of R144. -/
theorem divByZeroCompletes : Obligations.DivByZeroCompletes := by
  intro s a b hb
  refine ⟨?_, resultFlags_zero _ _ _, fun _ m x => engineDivide_zero m x⟩
  rw [exec_aluDiv, aluCommit_eq_aluDone, hb, divPath_zero, divRecords_zero]

end Sys2Proof.Machine
end

section
/-! SUPPORT. AND, OR, XOR and NOT in Lean's bit-vector operations: the loop over the positions writes the vector that has the
gate's bits (42_logic.md R170 to R173); from this O22. -/

namespace Sys2Proof.Machine

/-- The loop writes the one vector with these bits. -/
theorem tabulate_eq {n : Nat} {f : Nat → Bool} {r : BitVec n} (h : ∀ i < n, r.getLsbD i = f i) : tabulate f n = r := by
  apply BitVec.eq_of_getLsbD_eq
  intro i hi
  rw [getLsbD_tabulate, h i hi, decide_eq_true hi, Bool.true_and]

/-! ### The paths and their records, for every gate -/

/-- A gate that computes `op`, committed at every position, completes with the vector `op` gives bit by bit. -/
theorem aluCommit_gatePath {n : Nat} {g op : Bool → Bool → Bool} {a b r : BitVec n} (s : State)
    (hg : ∀ x y, g x y = op x y) (hr : ∀ i < n, r.getLsbD i = op (a.getLsbD i) (b.getLsbD i)) :
    aluCommit (gatePath g a b) (gateRecords g a b) s = aluDone s r false false .none (gateTraceLaw op a b) := by
  obtain rfl : g = op := funext₂ hg
  rw [aluCommit_eq_aluDone, gatePath, tabulate_eq hr, gateRecords, gateTraceLaw]

theorem notPath_eq {n : Nat} (a : BitVec n) :
    notPath a = { result := ~~~a, cflag := false, vflag := false, event := .none } := by
  rw [notPath, tabulate_eq fun i hi => by rw [BitVec.getLsbD_not, decide_eq_true hi, Bool.true_and, gateNot_eq]]

/-! ### AND, OR, XOR and NOT -/

theorem exec_aluAnd (a b : Operand) (s : State) : exec (.aluAnd a (some b)) s =
    .next (aluCommit (gatePath gateAnd (operandOf s a) (operandOf s b))
      (gateRecords gateAnd (operandOf s a) (operandOf s b)) s) := rfl

theorem exec_aluOr (a b : Operand) (s : State) : exec (.aluOr a (some b)) s =
    .next (aluCommit (gatePath gateOr (operandOf s a) (operandOf s b))
      (gateRecords gateOr (operandOf s a) (operandOf s b)) s) := rfl

theorem exec_aluXor (a b : Operand) (s : State) : exec (.aluXor a (some b)) s =
    .next (aluCommit (gatePath gateXor (operandOf s a) (operandOf s b))
      (gateRecords gateXor (operandOf s a) (operandOf s b)) s) := rfl

theorem exec_aluNot (a : Operand) (s : State) : exec (.aluNot a) s =
    .next (aluCommit (notPath (operandOf s a)) (notRecords (operandOf s a)) s) := rfl

/-- Settles O22: each instruction commits its gate's path, whose result is the bitwise operation's and whose records are the
gate's bits. -/
theorem logicCompletes : Obligations.LogicCompletes := by
  intro s a b
  refine ⟨?and, ?or, ?xor, ?not⟩
  case and => rw [exec_aluAnd, aluCommit_gatePath s gateAnd_eq fun _ _ => BitVec.getLsbD_and]
  case or => rw [exec_aluOr, aluCommit_gatePath s gateOr_eq fun _ _ => BitVec.getLsbD_or]
  case xor => rw [exec_aluXor, aluCommit_gatePath s gateXor_eq fun _ _ => BitVec.getLsbD_xor]
  case not =>
    rw [exec_aluNot, aluCommit_eq_aluDone, notPath_eq]
    rfl

end Sys2Proof.Machine
end

section
/-! SUPPORT. SHL, SHR, ROL and ROR in Lean's bit-vector operations: moving every bit by one position is a shift when a zero is
fed in and a rotation when the bit that left is fed in (43_shift_rotate.md R180 to R183); from this O23. -/

namespace Sys2Proof.Machine

/-! ### Moving every bit by one position -/

section
variable {n : Nat} (x : BitVec n)

theorem shiftUp_false : shiftUp x false = x <<< 1 := by
  refine tabulate_eq fun i hi => ?_
  rw [BitVec.getLsbD_shiftLeft, decide_eq_true hi, Bool.true_and]
  cases i with
  | zero => simp
  | succ k => simp

theorem shiftDown_false : shiftDown x false = x >>> 1 := by
  refine tabulate_eq fun i hi => ?_
  rw [BitVec.getLsbD_ushiftRight, Nat.add_comm]
  split
  case isTrue top => exact BitVec.getLsbD_of_ge x (i + 1) (by omega)
  case isFalse => rfl

/-- Width 1 is a case of its own in both rotations: its one bit leaves and comes back to its place. -/
theorem shiftUp_getLsbD_last : shiftUp x (x.getLsbD (n - 1)) = x.rotateLeft 1 := by
  refine tabulate_eq fun i hi => ?_
  obtain rfl | one_lt : n = 1 ∨ 1 < n := by omega
  · obtain rfl : i = 0 := by omega
    simp
  · rw [BitVec.getLsbD_rotateLeft_of_le one_lt, decide_eq_true hi, Bool.true_and]
    cases i with
    | zero => simp
    | succ k => simp

theorem shiftDown_getLsbD_zero : shiftDown x (x.getLsbD 0) = x.rotateRight 1 := by
  refine tabulate_eq fun i hi => ?_
  obtain rfl | one_lt : n = 1 ∨ 1 < n := by omega
  · obtain rfl : i = 0 := by omega
    simp
  · rw [BitVec.getLsbD_rotateRight, Nat.mod_eq_of_lt one_lt, decide_eq_true hi, Bool.true_and]
    by_cases top : i = n - 1
    · simp [top]
    · simp [top, show i < n - 1 by omega, Nat.add_comm]

end

/-! ### The paths and their record -/

/-- A shift commits its result with the bit that left as Carry, and both in its one record. -/
theorem shiftCommit_shiftOut {n : Nat} (x r : BitVec n) (dropped : Bool) (s : State) :
    shiftCommit x (shiftOut r dropped) s = aluDone s r dropped false .none [.shift ⟨n, x⟩ dropped ⟨n, r⟩] := by
  rw [shiftCommit, aluCommit_eq_aluDone, shiftOut, shiftRecords]

section
variable {n : Nat} (x : BitVec n)

theorem shlPath_eq : shlPath x = shiftOut (x <<< 1) x.msb := by
  rw [shlPath, shiftUp_false, BitVec.msb_eq_getLsbD_last]

theorem shrPath_eq : shrPath x = shiftOut (x >>> 1) (x.getLsbD 0) := by
  rw [shrPath, shiftDown_false]

theorem rolPath_eq : rolPath x = shiftOut (x.rotateLeft 1) x.msb := by
  rw [rolPath, shiftUp_getLsbD_last, BitVec.msb_eq_getLsbD_last]

theorem rorPath_eq : rorPath x = shiftOut (x.rotateRight 1) (x.getLsbD 0) := by
  rw [rorPath, shiftDown_getLsbD_zero]

end

/-! ### SHL, SHR, ROL and ROR -/

section
variable (a : Operand) (s : State)

theorem exec_aluShl : exec (.aluShl a) s = .next (shiftCommit (operandOf s a) (shlPath (operandOf s a)) s) := rfl

theorem exec_aluShr : exec (.aluShr a) s = .next (shiftCommit (operandOf s a) (shrPath (operandOf s a)) s) := rfl

theorem exec_aluRol : exec (.aluRol a) s = .next (shiftCommit (operandOf s a) (rolPath (operandOf s a)) s) := rfl

theorem exec_aluRor : exec (.aluRor a) s = .next (shiftCommit (operandOf s a) (rorPath (operandOf s a)) s) := rfl

end

/-- Settles O23: each instruction commits its path, the shift or rotation by one with the bit that left, and the one record
of it. -/
theorem shiftsComplete : Obligations.ShiftsComplete := by
  rintro s a x rfl
  refine ⟨?shl, ?shr, ?rol, ?ror⟩
  case shl => rw [exec_aluShl, shlPath_eq, shiftCommit_shiftOut]
  case shr => rw [exec_aluShr, shrPath_eq, shiftCommit_shiftOut]
  case rol => rw [exec_aluRol, rolPath_eq, shiftCommit_shiftOut]
  case ror => rw [exec_aluRor, rorPath_eq, shiftCommit_shiftOut]

end Sys2Proof.Machine
end

section
/-! SUPPORT. What a step runs for a presented word, and what an ALU instruction can complete with or raise: the flag and event
sources of each path (44_alu_dispatch_flags.md R192, R202) and the infos of its faults (60_exceptions.md R291, R292); from
this O3, O16, O24, O28 and O29. -/

namespace Sys2Proof.Machine

/-! ### A presented word -/

/-- An ALU instruction word is taken at once, whatever the evaluator does (70_reset_and_hazards.md R325). -/
theorem step_of_alu_word {s : State} {w : InstrWord} {te : Bool} {rest : List HostAction}
    (hs : s.host = .alu w te :: rest) : step s = issueAlu w te rest s := by
  simp only [step, machineStep, hs]

/-- Settles O3: the word goes to the ALU unit, which runs what it decodes to. -/
theorem stepRunsThePresentedWord : Obligations.StepRunsThePresentedWord := fun _ _ _ _ hs =>
  step_of_alu_word hs

/-! ### The flags of a result -/

theorem zeroFlag_iff {n : Nat} (r : BitVec n) : zeroFlag r = true ↔ ∀ i < n, r.getLsbD i = false := by
  rw [zeroFlag, chain_and_not_eq, Bool.not_eq_true', chain_or_eq_false]

theorem parityFlag_iff {n : Nat} (r : BitVec n) : parityFlag r = true ↔ setBits r % 2 = 1 := by
  rw [parityFlag_eq, oddlySet, beq_iff_eq]

/-- Settles O16: each flag by what its gate chain computes. -/
theorem flagsDescribeTheResult : Obligations.FlagsDescribeTheResult := fun _ r c v =>
  ⟨zeroFlag_iff r, rfl, parityFlag_iff r, flagsOf_eq_resultFlags r c v⟩

/-! ### The unassigned opcodes -/

theorem unknownCommit_eq_aluDone (op : BitVec 4) (s : State) :
    unknownCommit op s = aluDone s 0#s.params.n false false .unknownOpcode [.unknownOpcode op] := by
  rw [unknownCommit, aluCommit_eq_aluDone, unknownPath, unknownRecords]

theorem exec_aluUnassigned12 (s : State) : exec .aluUnassigned12 s = .next (unknownCommit 12#4 s) := rfl

theorem exec_aluUnassigned13 (s : State) : exec .aluUnassigned13 s = .next (unknownCommit 13#4 s) := rfl

theorem exec_aluUnassigned14 (s : State) : exec .aluUnassigned14 s = .next (unknownCommit 14#4 s) := rfl

theorem exec_aluUnassigned15 (s : State) : exec .aluUnassigned15 s = .next (unknownCommit 15#4 s) := rfl

/-- Settles O24: each of the four codes commits the zero result with its own record. -/
theorem unassignedOpcodesCompleteSoftly : Obligations.UnassignedOpcodesCompleteSoftly := by
  refine fun s => ⟨fun row hrow => ?_, resultFlags_zero _ _ _⟩
  have commits : exec row.2 s = .next (unknownCommit row.1 s) := by
    fin_cases hrow
    · exact exec_aluUnassigned12 s
    · exact exec_aluUnassigned13 s
    · exact exec_aluUnassigned14 s
    · exact exec_aluUnassigned15 s
  rw [commits, unknownCommit_eq_aluDone]

/-! ### No latch is read -/

/-- Settles O29: what the instruction raises or commits is decided by the parameters, which the two states share. -/
theorem aluReadsNoEarlierResult : Obligations.AluReadsNoEarlierResult := by
  intro i s u hi hp
  obtain ⟨f, he⟩ | ⟨o, records, he⟩ := exec_alu_answersByParams hi u.params
  · exact ⟨_, _, he s hp, he u rfl, rfl, fun hf => by cases hf⟩
  · exact ⟨_, _, he s hp, he u rfl, rfl, fun _ => ⟨rfl, rfl, rfl⟩⟩

/-! ### What a path can hand to the commit -/

/-- A path's outputs are within what R202 of 44_alu_dispatch_flags.md admits for the instruction: Carry and Overflow from
their sources only, and a soft event beside a zero result without either. -/
structure AdmittedPath (p : Params) (i : Instr) {n : Nat} (o : PathOut n) : Prop where
  carry : o.cflag = true → mayCarry i = true
  overflow : o.vflag = true → mayOverflow p i = true
  event : o.event ≠ .none → o.result = 0#n ∧ o.cflag = false ∧ o.vflag = false

section
variable {p : Params} {i : Instr} {n : Nat}

/-- A path without Carry, Overflow and event is admitted for every instruction. -/
theorem admittedPath_quiet (r : BitVec n) :
    AdmittedPath p i { result := r, cflag := false, vflag := false, event := .none } :=
  ⟨nofun, nofun, fun h => absurd rfl h⟩

theorem gatePath_admitted (g : Bool → Bool → Bool) (x y : BitVec n) : AdmittedPath p i (gatePath g x y) :=
  admittedPath_quiet _

/-- A path with an event is admitted for every instruction if it hands over zero and no Carry or Overflow. -/
theorem admittedPath_zero (e : Event) :
    AdmittedPath p i { result := 0#n, cflag := false, vflag := false, event := e } :=
  ⟨nofun, nofun, fun _ => ⟨rfl, rfl, rfl⟩⟩

theorem admittedPath_shift (hi : mayCarry i = true) (r : BitVec n) (dropped : Bool) :
    AdmittedPath p i (shiftOut r dropped) :=
  ⟨fun _ => hi, nofun, fun h => absurd rfl h⟩

end

section
variable (p : Params) (a : Operand) (b : Option Operand) {n : Nat} (x y : BitVec n)

/-- ADD writes Overflow under ADD_V_MODE SIGNED only (41_arithmetic.md R140). -/
theorem addPath_admitted : AdmittedPath p (.aluAdd a b) (addPath p x y) := by
  refine ⟨fun _ => rfl, fun hv => ?_, fun h => absurd rfl h⟩
  have signed : p.addVMode = .signed := by
    cases hmode : p.addVMode with
    | zero => simp [addPath, addOverflow, hmode] at hv
    | signed => rfl
  exact decide_eq_true signed

theorem subPath_admitted : AdmittedPath p (.aluSub a b) (subPath p x y) :=
  ⟨fun _ => rfl, fun _ => rfl, fun h => absurd rfl h⟩

theorem mulPath_admitted : AdmittedPath p (.aluMul a b) (mulPath x y) :=
  ⟨nofun, fun _ => rfl, fun h => absurd rfl h⟩

/-- DIV has an event only for a zero divisor (41_arithmetic.md R144). -/
theorem divPath_admitted : AdmittedPath p (.aluDiv a b) (divPath p x y) := by
  by_cases hy : y = 0#n
  · rw [hy, divPath_zero]
    exact admittedPath_zero _
  · rw [divPath_of_ne_zero p x hy]
    exact admittedPath_quiet _

end

/-! ### What an ALU instruction answers -/

/-- The outcome of the instruction `i` is a fault, its info a legal one if `i` has an encoding, or the commit of an admitted
path. -/
def AnswersAdmitted (i : Instr) (s : State) (out : Host.Outcome State Fault Refusal) : Prop :=
  (∃ f, out = .next (aluRaise f s) ∧ (i.wf s.params.n = true → legalAluFault f)) ∨
    (∃ o : PathOut s.params.n, ∃ records, out = .next (aluCommit o records s) ∧ AdmittedPath s.params i o)

theorem answersAdmitted_commit {i : Instr} {s : State} {o : PathOut s.params.n} (ho : AdmittedPath s.params i o)
    (records : List AluRecord) : AnswersAdmitted i s (.next (aluCommit o records s)) :=
  .inr ⟨o, records, rfl, ho⟩

/-- A binary opcode: the OP values of R292 are 0 to 6. -/
theorem answersAdmitted_binary {i : Instr} (op : BitVec 4) (hop : op.toNat ≤ 6) (b : Option Operand) {s : State}
    {o : BitVec s.params.n → PathOut s.params.n} (ho : ∀ y, AdmittedPath s.params i (o y))
    (records : BitVec s.params.n → List AluRecord) :
    AnswersAdmitted i s (withOperandB op b s fun y => aluCommit (o y) (records y) s) := by
  cases b with
  | none => exact .inl ⟨.operandBMissing op, rfl, fun _ => hop⟩
  | some b => exact answersAdmitted_commit (ho _) _

/-- The mask of an invalid word that lacks a field is not 0 (60_exceptions.md R291). -/
theorem missingMask_ne_zero : ∀ {vop va : Bool}, (!(vop && va)) = true → missingMask vop va ≠ 0#2 := by decide

theorem exec_alu_answersAdmitted {i : Instr} (hi : i.isAlu = true) (s : State) : AnswersAdmitted i s (exec i s) := by
  cases i with
  | aluAdd a b => exact answersAdmitted_binary 0#4 (by decide) b (addPath_admitted s.params a b _) _
  | aluSub a b => exact answersAdmitted_binary 1#4 (by decide) b (subPath_admitted s.params a b _) _
  | aluMul a b => exact answersAdmitted_binary 2#4 (by decide) b (mulPath_admitted s.params a b _) _
  | aluDiv a b => exact answersAdmitted_binary 3#4 (by decide) b (divPath_admitted s.params a b _) _
  | aluAnd a b => exact answersAdmitted_binary 4#4 (by decide) b (gatePath_admitted gateAnd _) _
  | aluOr a b => exact answersAdmitted_binary 5#4 (by decide) b (gatePath_admitted gateOr _) _
  | aluXor a b => exact answersAdmitted_binary 6#4 (by decide) b (gatePath_admitted gateXor _) _
  | aluNot a => exact answersAdmitted_commit (admittedPath_quiet _) _
  | aluShl a => exact answersAdmitted_commit (admittedPath_shift rfl _ _) _
  | aluShr a => exact answersAdmitted_commit (admittedPath_shift rfl _ _) _
  | aluRol a => exact answersAdmitted_commit (admittedPath_shift rfl _ _) _
  | aluRor a => exact answersAdmitted_commit (admittedPath_shift rfl _ _) _
  | aluUnassigned12 => exact answersAdmitted_commit (admittedPath_zero _) _
  | aluUnassigned13 => exact answersAdmitted_commit (admittedPath_zero _) _
  | aluUnassigned14 => exact answersAdmitted_commit (admittedPath_zero _) _
  | aluUnassigned15 => exact answersAdmitted_commit (admittedPath_zero _) _
  | aluInvalid vop va => exact .inl ⟨_, rfl, missingMask_ne_zero⟩
  | _ => cases hi

/-- Settles O28: the instruction commits an admitted path, and the flags of a zero result are known. -/
theorem completedFlagFacts : Obligations.CompletedFlagFacts := by
  intro i s t hi h completed
  obtain ⟨f, he, -⟩ | ⟨o, records, he, admitted⟩ := exec_alu_answersAdmitted hi s <;> cases he.symm.trans h
  · cases completed
  · simp only [aluCommit_flags, aluCommit_evt, flagsOf_eq_resultFlags]
    refine ⟨fun hz => ?_, fun hevt => ?_, admitted.carry, admitted.overflow⟩
    · have zero : o.result = 0#s.params.n := of_decide_eq_true hz
      rw [zero, resultFlags_zero]
      exact ⟨rfl, rfl⟩
    · obtain ⟨zero, no_carry, no_overflow⟩ := admitted.event hevt
      rw [zero, no_carry, no_overflow, resultFlags_zero]
      rfl

end Sys2Proof.Machine
end

section
/-! SUPPORT. A token of a legal command in progress: the stack it leaves is at most one value longer, and a fault of it has a
legal info, so that the stack never overflows (46_postfix_machine.md R253 to R256, R258). -/

namespace Sys2Proof.Machine

/-- The effect leaves a stack that the next TP covers, or a fault whose info its cause admits. -/
def LegalEffect (p : Params) (r : Run) : Except EvFault (List Bool × StepRecord) → Prop
  | .ok (stk, _) => stk.length ≤ r.tp + 1
  | .error f     => legalEvFault p f

/-! ### The token at TP is within LMAX -/

section
variable {p : Params} {r : Run} (hr : legalRun p r) (htp : r.tp < r.tm.length)
include hr htp

theorem tp_lt_lmax : r.tp < p.lmax := by
  obtain ⟨-, fits, -⟩ := hr
  omega

theorem notEffect_legal : LegalEffect p r (notEffect r) := by
  have tp_lt := tp_lt_lmax hr htp
  obtain ⟨-, -, depth, -⟩ := hr
  unfold notEffect
  split
  next v rest hpop =>
    rw [popOne_ok.mp hpop] at depth
    exact Nat.le_succ_of_le depth
  next f hpop =>
    obtain ⟨-, rfl⟩ := popOne_error.mp hpop
    exact tp_lt

theorem binEffect_legal (op : BinOp) : LegalEffect p r (binEffect op r) := by
  have tp_lt := tp_lt_lmax hr htp
  obtain ⟨-, -, depth, -⟩ := hr
  unfold binEffect
  split
  next left right rest hpop =>
    rw [popTwo_ok.mp hpop] at depth
    exact (Nat.le_succ _).trans (Nat.le_succ_of_le depth)
  next f hpop =>
    obtain ⟨-, rfl⟩ := popTwo_error.mp hpop
    exact tp_lt

/-- VAR finds a free slot: SP ≤ TP < L ≤ LMAX ≤ SD. -/
theorem varEffect_legal (hsd : p.lmax ≤ p.sd) (k : BitVec 5) : LegalEffect p r (varEffect p.sd r k) := by
  have tp_lt := tp_lt_lmax hr htp
  obtain ⟨-, -, depth, -⟩ := hr
  have push : pushValue p.sd r.tp (slotValue r.asg k) r.stk = .ok (slotValue r.asg k :: r.stk) :=
    pushValue_ok.mpr ⟨by omega, rfl⟩
  simp only [varEffect, push]
  exact Nat.succ_le_succ depth

end

/-- What the token at TP does, whichever it is. -/
theorem exec_token_legalEffect {i : Instr} (hi : i.isAlu = false) {s : State} {r : Run} (hsd : s.params.lmax ≤ s.params.sd)
    (hrun : s.run = some r) (hr : legalRun s.params r) (htp : r.tp < r.tm.length) :
    ∃ effect, LegalEffect s.params r effect ∧ exec i s = .next (runToken s r effect) := by
  have inPass_of_run : ∀ k, inPass s k = .next (k r) := fun k => inPass_next.mpr ⟨r, hrun, rfl⟩
  cases i with
  | tokVar k => exact ⟨_, varEffect_legal hr htp hsd k, inPass_of_run _⟩
  | tokAnd => exact ⟨_, binEffect_legal hr htp .and, inPass_of_run _⟩
  | tokOr => exact ⟨_, binEffect_legal hr htp .or, inPass_of_run _⟩
  | tokXor => exact ⟨_, binEffect_legal hr htp .xor, inPass_of_run _⟩
  | tokNot => exact ⟨_, notEffect_legal hr htp, inPass_of_run _⟩
  | tokReserved t => exact ⟨.error (.badToken r.tp), tp_lt_lmax hr htp, inPass_of_run _⟩
  | _ => cases hi

end Sys2Proof.Machine
end

section
/-! SUPPORT. The invariant `legalState`: it holds at reset, each shared operation keeps it, and so does each function of the
step; from this O2 and O48. -/

namespace Sys2Proof.Machine

/-! ### Reset -/

theorem legalState_afterReset {p : Params} (hp : p.legal = true) (te : Bool) (host : List HostAction) :
    legalState (State.afterReset te host p) := by
  have sign : Flags.zero.s = (0#p.n).msb := BitVec.msb_zero.symm
  have parity : Flags.zero.p = oddlySet 0#p.n := by simp [Flags.zero, oddlySet, setBits]
  exact ⟨hp, ⟨rfl, rfl⟩, ⟨sign, parity, nofun, fun h => absurd rfl h⟩, nofun, nofun, nofun⟩

/-- Settles O2: the parameters of this hardware are legal. -/
theorem resetStateIsLegal : Obligations.ResetStateIsLegal := legalState_afterReset (by decide) false []

/-! ### Commands in progress -/

/-- An executed token advances TP by one, and the new stack stays below it. -/
theorem legalRun_advance {p : Params} {r : Run} (hr : legalRun p r) (htp : r.tp < r.tm.length) {stk : List Bool}
    (depth : stk.length ≤ r.tp + 1) : legalRun p { r with stk := stk, tp := r.tp + 1 } := by
  obtain ⟨-, fits, -, kind⟩ := hr
  exact ⟨htp, fits, depth, kind⟩

section
variable {p : Params} {tm : List Token} (fits : tm.length ≤ p.lmax)
include fits

theorem legalRun_freshEval (asg : BitVec Config.NV) : legalRun p (freshRun .eval tm asg) :=
  ⟨Nat.zero_le _, fits, Nat.zero_le _, trivial⟩

theorem legalRun_freshStep (asg : BitVec Config.NV) : legalRun p (freshRun .step tm asg) :=
  ⟨Nat.zero_le _, fits, Nat.zero_le _, trivial⟩

/-- A pass of a truth table begins with the variables of its row and with no row from it on recorded. -/
theorem legalRun_freshRow {nvar row : Nat} {rows : Vec} (some_var : 1 ≤ nvar) (vars_fit : nvar ≤ p.ttMaxVars)
    (row_lt : row < 2 ^ nvar) (width : rows.width = 2 ^ p.ttMaxVars)
    (blank_from : ∀ i, row ≤ i → rows.bits.getLsbD i = false) :
    legalRun p (freshRun (.table nvar row rows) tm (rowAssignment nvar row)) :=
  ⟨Nat.zero_le _, fits, Nat.zero_le _, some_var, vars_fit, row_lt, width, blank_from, rfl⟩

end

/-! ### The shared operations -/

section
variable {s : State} (hs : legalState s)
include hs

/-- The stack is at least as deep as a program is long (00_scope.md R9). -/
theorem lmax_le_sd_of_legalState : s.params.lmax ≤ s.params.sd := by
  obtain ⟨params, -⟩ := hs
  simp only [Params.legal, Bool.and_eq_true, decide_eq_true_iff] at params
  omega

theorem legalRun_of_legalState {r : Run} (hrun : s.run = some r) : legalRun s.params r := by
  obtain ⟨-, -, -, -, -, run⟩ := hs
  exact run r hrun

theorem legalState_aluRaise {f : AluFault} (hf : legalAluFault f) : legalState (aluRaise f s) := by
  obtain ⟨params, widths, latches, -, efault, run⟩ := hs
  refine ⟨params, widths, latches, fun g hg => ?_, efault, run⟩
  cases hg
  exact hf

/-- The commit of an admitted path writes latches that agree with each other (44_alu_dispatch_flags.md R202). -/
theorem legalState_aluCommit {i : Instr} {o : PathOut s.params.n} (ho : AdmittedPath s.params i o)
    (records : List AluRecord) : legalState (aluCommit o records s) := by
  obtain ⟨params, ⟨-, ttout⟩, -, -, efault, run⟩ := hs
  rw [aluCommit_eq_aluDone]
  refine ⟨params, ⟨rfl, ttout⟩, ⟨rfl, rfl, of_decide_eq_true, fun hevt => ?_⟩, nofun, efault, run⟩
  obtain ⟨zero, no_carry, no_overflow⟩ := ho.event hevt
  exact ⟨zero, by rw [aluDone, no_carry, no_overflow]⟩

theorem legalState_evRaise {f : EvFault} (hf : legalEvFault s.params f) : legalState (evRaise f s) := by
  obtain ⟨params, widths, latches, fault, -, -⟩ := hs
  refine ⟨params, widths, latches, fault, fun g hg => ?_, nofun⟩
  cases hg
  exact hf

/-- A legal command in progress, whatever STEP trace stands beside it. -/
theorem legalState_withRun {r : Run} (hr : legalRun s.params r) (etrace : List StepRecord) :
    legalState { s with run := some r, etrace := etrace } := by
  obtain ⟨params, widths, latches, fault, efault, -⟩ := hs
  refine ⟨params, widths, latches, fault, efault, fun q hq => ?_⟩
  cases hq
  exact hr

theorem legalState_completeEval (result : Bool) (etrace : List StepRecord) :
    legalState (completeEval result { s with etrace := etrace }) := by
  obtain ⟨params, widths, latches, fault, -, -⟩ := hs
  exact ⟨params, widths, latches, fault, nofun, nofun⟩

theorem legalState_completeTable {rows : Vec} (hrows : rows.width = 2 ^ s.params.ttMaxVars) :
    legalState (completeTable rows s) := by
  obtain ⟨params, ⟨res, -⟩, latches, fault, -, -⟩ := hs
  exact ⟨params, ⟨res, hrows⟩, latches, fault, nofun, nofun⟩

/-! ### The ALU unit -/

theorem exec_alu_keeps_legalState {i : Instr} (hi : i.isAlu = true) (hwf : i.wf s.params.n = true) {t : State}
    (h : exec i s = .next t) : legalState t := by
  obtain ⟨f, he, legal_info⟩ | ⟨o, records, he, admitted⟩ := exec_alu_answersAdmitted hi s <;> cases he.symm.trans h
  · exact legalState_aluRaise hs (legal_info hwf)
  · exact legalState_aluCommit hs admitted records

/-! ### The evaluator unit: tokens and the finish of a pass -/

theorem runToken_keeps_legalState {r : Run} (hr : legalRun s.params r) (htp : r.tp < r.tm.length)
    {effect : Except EvFault (List Bool × StepRecord)} (he : LegalEffect s.params r effect) :
    legalState (runToken s r effect) := by
  obtain ⟨stk, record, rfl, hrun⟩ | ⟨f, rfl, hrun⟩ := runToken_cases s r effect <;> rw [hrun]
  · exact legalState_withRun hs (legalRun_advance hr htp he) _
  · exact legalState_evRaise hs he

/-- The next row's pass is legal: the row just recorded is below it, and its variables are those of its index. -/
theorem finishRow_keeps_legalState {r : Run} {nvar row : Nat} {rows : Vec} (hr : legalRun s.params r)
    (hkind : r.kind = .table nvar row rows) (result : Bool) : legalState (finishRow r nvar row rows result s) := by
  obtain ⟨-, fits, -, kind⟩ := hr
  rw [hkind] at kind
  obtain ⟨some_var, vars_fit, -, width, blank_above, -⟩ := kind
  unfold finishRow
  split
  next more =>
    have blank_above' : ∀ i, row + 1 ≤ i → (recordRow rows row result).bits.getLsbD i = false := fun i hi => by
      rw [recordRow, getLsbD_tabulate, if_neg (by omega), blank_above i (by omega), Bool.and_false]
    have hr' : legalRun s.params (freshRun _ r.tm _) :=
      legalRun_freshRow (rows := recordRow rows row result) fits some_var vars_fit more width blank_above'
    exact legalState_withRun hs hr' s.etrace
  next => exact legalState_completeTable hs width

theorem finishPass_keeps_legalState {r : Run} (hr : legalRun s.params r) (result : Bool) :
    legalState (finishPass r result s) := by
  unfold finishPass
  split
  next => exact legalState_completeEval hs result s.etrace
  next => exact legalState_completeEval hs result _
  next hkind => exact finishRow_keeps_legalState hs hr hkind result

theorem evFinish_keeps_legalState {r : Run} (hr : legalRun s.params r) : legalState (evFinish r s) := by
  obtain ⟨b, -, he⟩ | ⟨depth_ne_one, he⟩ := evFinish_cases r s <;> rw [he]
  · exact finishPass_keeps_legalState hs hr b
  · obtain ⟨tp_le, fits, depth, -⟩ := hr
    exact legalState_evRaise hs ⟨depth_ne_one, depth.trans (tp_le.trans fits)⟩

theorem evAdvance_keeps_legalState {r : Run} {t : State} (hrun : s.run = some r) (h : evAdvance r s = .next t) :
    legalState t := by
  have hr := legalRun_of_legalState hs hrun
  unfold evAdvance at h
  split at h
  next token htoken =>
    obtain ⟨htp, -⟩ := List.getElem?_eq_some_iff.mp htoken
    obtain ⟨effect, legal_effect, he⟩ :=
      exec_token_legalEffect (decodeToken_isAlu token) (lmax_le_sd_of_legalState hs) hrun hr htp
    cases he.symm.trans h
    exact runToken_keeps_legalState hs hr htp legal_effect
  next =>
    cases h
    exact evFinish_keeps_legalState hs hr

theorem evTick_keeps_legalState {t : State} (h : evTick s = .next t) : legalState t := by
  unfold evTick at h
  split at h
  next hrun => exact evAdvance_keeps_legalState hs hrun h
  next =>
    cases h
    exact hs

/-! ### The evaluator unit: the start of a command -/

theorem loadProgram_keeps_legalState {req : EvRequest} {k : List Token → State} {t : State}
    (h : loadProgram req s k = .next t) (hk : ∀ tm : List Token, tm.length ≤ s.params.lmax → legalState (k tm)) :
    legalState t := by
  obtain ⟨too_long, he⟩ | ⟨-, -, he⟩ | ⟨fits, -, he⟩ := loadProgram_cases req s k <;> cases he.symm.trans h
  · exact legalState_evRaise hs ⟨too_long, Nat.mod_lt _ (Nat.two_pow_pos _)⟩
  · exact hk _ ((List.length_take_le _ _).trans fits)

theorem startTable_keeps_legalState {req : EvRequest} {t : State} (h : startTable req s = .next t) : legalState t := by
  unfold startTable at h
  split at h
  next =>
    cases h
    exact legalState_evRaise hs trivial
  next some_var =>
    split at h
    next too_large =>
      cases h
      exact legalState_evRaise hs ⟨too_large, req.nvin.isLt⟩
    next vars_fit =>
      have blank : ∀ i, 0 ≤ i → (blankRows s.params).bits.getLsbD i = false := fun _ _ => BitVec.getLsbD_zero
      exact loadProgram_keeps_legalState hs h fun tm fits => legalState_withRun hs
        (legalRun_freshRow fits (Nat.pos_of_ne_zero some_var) (Nat.not_lt.mp vars_fit) (Nat.two_pow_pos _) rfl blank) s.etrace

theorem evStart_keeps_legalState {req : EvRequest} {t : State} (h : evStart req s = .next t) : legalState t := by
  obtain ⟨-, he⟩ | ⟨-, he⟩ | ⟨-, he⟩ | ⟨reserved, he⟩ := evStart_cases req s <;> rw [he] at h
  · exact loadProgram_keeps_legalState hs h fun tm fits =>
      legalState_withRun hs (legalRun_freshEval fits req.asgin) s.etrace
  · exact loadProgram_keeps_legalState hs h fun tm fits =>
      legalState_withRun hs (legalRun_freshStep fits req.asgin) []
  · exact startTable_keeps_legalState hs h
  · cases h
    exact legalState_evRaise hs reserved

end

/-! ### The step -/

theorem decodeOp_wf {n : Nat} (op : BitVec 4) {a : Operand} {b : Option Operand} (ha : a.hasWidth n = true)
    (hab : binaryOperandsFit n a b = true) : (decodeOp op a b).wf n = true := by
  unfold decodeOp
  split <;> simp only [Instr.wf, ha, hab]

/-- Every word decodes to an instruction that has an encoding (30_encoding.md R86). -/
theorem decodeWord_wf (n : Nat) {k : Nat} (w : BitVec k) : (decodeWord n w).wf n = true := by
  have fills : ∀ v : BitVec n, Vec.hasWidth n ⟨n, v⟩ = true := fun _ => beq_self_eq_true n
  unfold decodeWord
  split
  next =>
    refine decodeOp_wf _ (fills _) ?_
    cases vbField n w <;> simp [binaryOperandsFit, fills]
  next missing => simpa only [Instr.wf, Bool.not_eq_true', Bool.not_eq_true] using missing

/-- What the host drives is no part of the invariant. -/
theorem legalState_presented {s : State} (hs : legalState s) (te : Bool) (host : List HostAction) :
    legalState { s with te := te, host := host } := hs

/-- Settles O48, by the moves of `step_cases`: each is a function of the step that keeps the invariant. -/
theorem stepKeepsLegalState : Obligations.StepKeepsLegalState := by
  intro s t hs h
  obtain ⟨w, te, rest, -, he⟩ | ⟨rest, -, he⟩ | ⟨-, he⟩ | ⟨req, rest, -, -, he⟩ | ⟨rest, -, -, he⟩ | ⟨r, hrun, -, he⟩ :=
    step_cases s <;> rw [he] at h
  · exact exec_alu_keeps_legalState (legalState_presented hs te rest) (decodeWord_isAlu _ _) (decodeWord_wf _ _) h
  · exact evTick_keeps_legalState (legalState_presented hs s.te rest) h
  · exact evTick_keeps_legalState hs h
  · exact evStart_keeps_legalState (legalState_presented hs s.te rest) h
  · obtain ⟨params, -⟩ := hs
    cases h
    exact legalState_afterReset params s.te rest
  · exact evAdvance_keeps_legalState hs hrun h

end Sys2Proof.Machine
end

section
/-! SUPPORT. The tokenizer: what case folding does to a character, and which characters end the scan
(45_expression_assembler.md R221 to R226). From these O54 and O55. -/

namespace Sys2Proof.Machine

/-! ### Case folding -/

section
variable {c : Char}

theorem toNat_foldCase_of_lower (hlo : 97 ≤ c.toNat) (hhi : c.toNat ≤ 122) : (foldCase c).toNat = c.toNat - 32 := by
  rw [foldCase, if_pos ⟨hlo, hhi⟩, Char.toNat_ofNat, if_pos (Or.inl (by omega))]

theorem foldCase_of_not_lower (h : ¬ (97 ≤ c.toNat ∧ c.toNat ≤ 122)) : foldCase c = c := if_neg h

/-- A character that does not fold to a letter is not folded at all. -/
theorem foldCase_of_not_letter (h : isLetter (foldCase c) = false) : foldCase c = c := by
  refine foldCase_of_not_lower fun ⟨hlo, hhi⟩ => ?_
  rw [isLetter, toNat_foldCase_of_lower hlo hhi, Bool.and_eq_false_iff, decide_eq_false_iff_not,
    decide_eq_false_iff_not] at h
  omega

/-- A character and the upper-case letter that may stand against it fold alike. -/
theorem foldCase_eq_of_same_or_upper {d : Char} (h : d = c ∨ (97 ≤ c.toNat ∧ c.toNat ≤ 122 ∧ d.toNat + 32 = c.toNat)) :
    foldCase c = foldCase d := by
  obtain rfl | ⟨hlo, hhi, hd⟩ := h
  · rfl
  · rw [foldCase_of_not_lower (c := d) (by omega), ← Char.toNat_inj, toNat_foldCase_of_lower hlo hhi]
    omega

end

/-- Settles O54: the assembler sees only the folded text. -/
theorem assemblerFoldsCase : Obligations.AssemblerFoldsCase := by
  intro p lower upper h
  have folded : lower.map foldCase = upper.map foldCase := by
    rw [← List.forall₂_eq_eq_eq, List.forall₂_map_left_iff, List.forall₂_map_right_iff]
    exact h.imp fun _ _ => foldCase_eq_of_same_or_upper
  simp only [assemble, tokenize, folded]

/-! ### The scan -/

/-- The characters outside R222 to R225 are refused wherever they stand. -/
theorem charLexeme_of_foreign {c : Char} (hsep : isSeparator c = false) (hsym : c ∉ ['&', '|', '^', '!', '(', ')']) :
    ∃ refusal, charLexeme c = .error refusal := by
  simp only [List.mem_cons, List.not_mem_nil, or_false, not_or] at hsym
  obtain ⟨ne_and, ne_or, ne_xor, ne_not, ne_open, ne_close⟩ := hsym
  rw [charLexeme, if_neg (Bool.eq_false_iff.mp hsep), if_neg ne_and, if_neg ne_or, if_neg ne_xor, if_neg ne_not,
    if_neg ne_open, if_neg ne_close]
  split_ifs <;> exact ⟨_, rfl⟩

section
variable {c : Char} (run : Name) (rest : List Char)

theorem scan_cons_letter (h : isLetter c = true) : scan run (c :: rest) = scan (run ++ [c]) rest := by
  rw [scan, if_pos h]

/-- A character that is no letter and is refused ends the scan, unless the run before it did. -/
theorem scan_cons_refused (hc : isLetter c = false) (h : ∃ refusal, charLexeme c = .error refusal) :
    ∃ refusal, scan run (c :: rest) = .error refusal := by
  obtain ⟨refusal, h⟩ := h
  rw [scan, if_neg (Bool.eq_false_iff.mp hc), h]
  cases closeRun run <;> exact ⟨_, rfl⟩

/-- A refusal of the text after a character that is no letter is one of the whole text. -/
theorem scan_cons_of_rest_refused (hc : isLetter c = false) (h : ∃ refusal, scan [] rest = .error refusal) :
    ∃ refusal, scan run (c :: rest) = .error refusal := by
  obtain ⟨refusal, h⟩ := h
  rw [scan, if_neg (Bool.eq_false_iff.mp hc), h]
  cases closeRun run <;> cases charLexeme c <;> exact ⟨_, rfl⟩

end

/-- A text with a refused character is refused, whatever letter run precedes it. -/
theorem scan_of_foreign {c : Char} (hc : isLetter c = false) (hrefused : ∃ refusal, charLexeme c = .error refusal)
    {text : List Char} (hmem : c ∈ text) (run : Name) : ∃ refusal, scan run text = .error refusal := by
  induction text generalizing run with
  | nil => cases hmem
  | cons d rest ih =>
    obtain rfl | htail := List.mem_cons.mp hmem
    · exact scan_cons_refused run rest hc hrefused
    cases hd : isLetter d
    case false => exact scan_cons_of_rest_refused run rest hd (ih htail [])
    case true => rw [scan_cons_letter run rest hd]; exact ih htail _

theorem assemble_of_tokenize_error {text : List Char} {refusal : AsmRefusal} (h : tokenize text = .error refusal)
    (p : Params) : assemble p text = .error refusal := by
  rw [assemble, h]

/-- Settles O55: folding keeps the character, and the scan refuses it. -/
theorem foreignCharactersAreRefused : Obligations.ForeignCharactersAreRefused := by
  intro p text c hmem hletter hsep hsym
  have folded : foldCase c = c := foldCase_of_not_letter hletter
  rw [folded] at hletter
  have in_folded : c ∈ text.map foldCase := List.mem_map.mpr ⟨c, hmem, folded⟩
  obtain ⟨refusal, refused⟩ := scan_of_foreign hletter (charLexeme_of_foreign hsep hsym) in_folded []
  exact ⟨refusal, assemble_of_tokenize_error refused p⟩

end Sys2Proof.Machine
end

section
/-! SUPPORT. The variable slots and what is emitted for them (45_expression_assembler.md R232 to R235): the order of names,
insertion into the sorted list, the tokens, ASGIN. From these O56, O57 and O58; and R231's examples, O59. -/

namespace Sys2Proof.Machine

/-! ### The order of names -/

theorem nameBefore_iff (m n : Name) : nameBefore m n = true ↔ m.map Char.toNat < n.map Char.toNat := by
  induction m generalizing n with
  | nil => cases n <;> simp [nameBefore]
  | cons c cs ih =>
    cases n with
    | nil => simp [nameBefore]
    | cons d ds => simp [nameBefore, List.cons_lt_cons_iff, ih]

theorem nameBefore_trans {l m n : Name} (hlm : nameBefore l m = true) (hmn : nameBefore m n = true) :
    nameBefore l n = true := by
  rw [nameBefore_iff] at *
  exact lt_trans hlm hmn

/-- Any two distinct names are ordered. -/
theorem nameBefore_of_ne {m n : Name} (hne : m ≠ n) (h : ¬ nameBefore m n = true) : nameBefore n m = true := by
  have codes_ne : m.map Char.toNat ≠ n.map Char.toNat :=
    (List.map_injective_iff.mpr fun _ _ => Char.toNat_inj.mp).ne hne
  rw [nameBefore_iff] at *
  exact (not_lt.mp h).lt_of_ne codes_ne.symm

/-! ### The sorted list of names -/

/-- In slot order each name stands before all later ones (R232). -/
def NamesSorted (names : List Name) : Prop := names.Pairwise fun m n => nameBefore m n = true

theorem mem_insertName {k n : Name} {names : List Name} : k ∈ insertName n names ↔ k = n ∨ k ∈ names := by
  induction names with
  | nil => simp [insertName]
  | cons m ms ih =>
    unfold insertName
    split_ifs with same before
    · subst same
      simp
    · exact List.mem_cons
    · rw [List.mem_cons, ih, List.mem_cons, or_left_comm]

theorem namesSorted_insertName (n : Name) {names : List Name} (h : NamesSorted names) :
    NamesSorted (insertName n names) := by
  induction names with
  | nil => exact List.pairwise_singleton _ _
  | cons m ms ih =>
    obtain ⟨m_first, ms_sorted⟩ := List.pairwise_cons.mp h
    unfold insertName
    split_ifs with same before
    · exact h
    · refine List.pairwise_cons.mpr ⟨fun k hk => ?_, h⟩
      obtain rfl | hk := List.mem_cons.mp hk
      · exact before
      · exact nameBefore_trans before (m_first k hk)
    · refine List.pairwise_cons.mpr ⟨fun k hk => ?_, ih ms_sorted⟩
      obtain rfl | hk := mem_insertName.mp hk
      · exact nameBefore_of_ne same before
      · exact m_first k hk

theorem namesSorted_sortedNames (items : List PostfixItem) : NamesSorted (sortedNames items) := by
  induction items with
  | nil => exact List.Pairwise.nil
  | cons item rest ih =>
    cases item with
    | name n => exact namesSorted_insertName n ih
    | op o => exact ih

theorem mem_sortedNames {n : Name} {items : List PostfixItem} : n ∈ sortedNames items ↔ .name n ∈ items := by
  induction items with
  | nil => simp [sortedNames]
  | cons item rest ih =>
    cases item with
    | name m => simp [sortedNames, mem_insertName, ih]
    | op o => simp [sortedNames, ih]

/-- Settles O56. -/
theorem slotsAreTheSortedNames : Obligations.SlotsAreTheSortedNames := fun items =>
  ⟨namesSorted_sortedNames items, nameBefore_iff, fun _ => mem_sortedNames⟩

/-! ### The emitted tokens -/

/-- The token is in the token map, and if it is a VAR its slot has one of these names (R232, R233). -/
def NamesASlot (names : List Name) (t : Token) : Prop :=
  tokenListed t = true ∧ (t.toNat < 0x20 → t.toNat < names.length)

theorem operatorToken_namesASlot (names : List Name) (o : OpSym) : NamesASlot names (operatorToken o) := by
  have listed : tokenListed (operatorToken o) = true := by cases o <;> rfl
  have no_var : ¬ (operatorToken o).toNat < 0x20 := by cases o <;> decide
  exact ⟨listed, fun var => absurd var no_var⟩

theorem emitToken_name_namesASlot {names : List Name} (hlen : names.length ≤ Config.NV) {n : Name} (hn : n ∈ names) :
    NamesASlot names (emitToken names (.name n)) := by
  have slot : names.idxOf n < names.length := List.idxOf_lt_length_iff.mpr hn
  have slot_small : names.idxOf n < 0x20 := slot.trans_le hlen
  have token_toNat : (emitToken names (.name n)).toNat = names.idxOf n := by
    rw [emitToken, BitVec.toNat_ofNat, Nat.mod_eq_of_lt (by omega)]
  exact ⟨by simp [tokenListed, token_toNat, slot_small], fun _ => token_toNat ▸ slot⟩

/-- What an accepted list of items becomes, and that both sizes were checked (R232, R233). -/
theorem emitProgram_eq_ok {p : Params} {items : List PostfixItem} {prog : Program} (h : emitProgram p items = .ok prog) :
    (sortedNames items).length ≤ Config.NV ∧ items.length ≤ p.lmax ∧
      prog = { names := sortedNames items, tokens := items.map (emitToken (sortedNames items)) } := by
  simp only [emitProgram] at h
  split_ifs at h with too_many too_long
  cases h
  exact ⟨Nat.not_lt.mp too_many, Nat.not_lt.mp too_long, rfl⟩

/-- Whatever is assembled was emitted for some list of items. -/
theorem emitProgram_of_assemble {p : Params} {text : List Char} {prog : Program} (h : assemble p text = .ok prog) :
    ∃ items, emitProgram p items = .ok prog := by
  unfold assemble at h
  split at h
  next => cases h
  next =>
    split at h
    next => cases h
    next items _ => exact ⟨items, h⟩

/-- Settles O57, by the item each token was emitted for. -/
theorem assembledProgramsFitTheMachine : Obligations.AssembledProgramsFitTheMachine := by
  intro p text prog h
  obtain ⟨items, emitted⟩ := emitProgram_of_assemble h
  obtain ⟨names_fit, tokens_fit, rfl⟩ := emitProgram_eq_ok emitted
  refine ⟨(List.length_map _).trans_le tokens_fit, names_fit, fun t ht => ?_⟩
  obtain ⟨item, hitem, rfl⟩ := List.mem_map.mp ht
  cases item with
  | name n => exact emitToken_name_namesASlot names_fit (mem_sortedNames.mpr hitem)
  | op o => exact operatorToken_namesASlot _ o

/-! ### The assignment -/

theorem assignedBit_eq_decide (assignment : List (Name × Int)) (n : Name) :
    assignedBit assignment n = decide (assignment.lookup n = some 1) := by
  unfold assignedBit
  cases assignment.lookup n with
  | none => rfl
  | some v => simp [beq_eq_decide]

/-- The check that `buildAsgin` makes first (R235; log 16). -/
theorem all_values_are_bits_iff {assignment : List (Name × Int)} :
    assignment.all (fun kv => kv.2 == 0 || kv.2 == 1) = true ↔ ∀ kv ∈ assignment, kv.2 = 0 ∨ kv.2 = 1 := by
  simp only [List.all_eq_true, Bool.or_eq_true, beq_iff_eq]

theorem buildAsgin_of_bad_value (names : List Name) {assignment : List (Name × Int)}
    (h : ∃ kv ∈ assignment, kv.2 ≠ 0 ∧ kv.2 ≠ 1) : buildAsgin names assignment = .error .badValue := by
  obtain ⟨kv, hmem, not_zero, not_one⟩ := h
  refine if_neg fun all_bits => ?_
  obtain zero | one := all_values_are_bits_iff.mp all_bits kv hmem
  · exact not_zero zero
  · exact not_one one

/-- Slot `k` of an accepted assignment, by the name it has or lacks (R235). -/
theorem buildAsgin_of_bits {names : List Name} (hlen : names.length ≤ Config.NV) {assignment : List (Name × Int)}
    (h : ∀ kv ∈ assignment, kv.2 = 0 ∨ kv.2 = 1) : ∃ asg, buildAsgin names assignment = .ok asg ∧
      ∀ k, asg.getLsbD k = (names[k]?.map (assignedBit assignment)).getD false := by
  refine ⟨_, if_pos (all_values_are_bits_iff.mpr h), fun k => ?_⟩
  rw [getLsbD_tabulate]
  cases slot : names[k]? with
  | none => exact Bool.and_false _
  | some n =>
    have in_range : k < Config.NV := (List.getElem?_eq_some_iff.mp slot).1.trans_le hlen
    rw [decide_eq_true in_range]
    rfl

/-- Settles O58. -/
theorem assignmentsDefaultToZero : Obligations.AssignmentsDefaultToZero := by
  intro names assignment hlen
  refine ⟨buildAsgin_of_bad_value names, fun all_bits => ?_⟩
  obtain ⟨asg, accepted, slots⟩ := buildAsgin_of_bits hlen all_bits
  refine ⟨asg, accepted, fun k past => ?_, fun k n slot => ?_⟩
  · rw [slots, List.getElem?_eq_none past]
    rfl
  · rw [slots, slot]
    exact assignedBit_eq_decide assignment n

/-! ### R231's examples -/

/-- Settles O59, by running the assembler on each text and the evaluator on each program; the two NOTs of the last one
cancel. -/
theorem doubleNotDoesNotNest : Obligations.DoubleNotDoesNotNest :=
  ⟨by decide, fun _ => rfl, by decide, fun _ => rfl, by decide, fun _ => congrArg _ (Bool.not_not _)⟩

end Sys2Proof.Machine
end

section
/-! SUPPORT. What each token makes of the stack, by the stack it finds (46_postfix_machine.md R253 to R256, R262), and that
the stepping machine and the value of a program read the same effect. From these O36, O37 and O38. -/

namespace Sys2Proof.Machine

/-! ### The effects, by the stack they find -/

section
variable {sd : Nat} {r : Run}

theorem varEffect_of_room (h : r.stk.length < sd) (k : BitVec 5) : varEffect sd r k =
    .ok (slotValue r.asg k :: r.stk, .load r.tp k.toNat (slotValue r.asg k) (snapshot (slotValue r.asg k :: r.stk))) := by
  simp only [varEffect, pushValue_ok.mpr ⟨h, rfl⟩]

theorem varEffect_of_full (h : sd ≤ r.stk.length) (k : BitVec 5) : varEffect sd r k = .error (.stackOverflow r.tp) := by
  simp only [varEffect, pushValue, if_pos h]

theorem notEffect_of_cons {v : Bool} {rest : List Bool} (h : r.stk = v :: rest) : notEffect r =
    .ok ((!v) :: rest, .applyNot r.tp v (!v) (snapshot ((!v) :: rest))) := by
  simp only [notEffect, popOne_ok.mpr h, gateNot_eq]

theorem notEffect_of_nil (h : r.stk = []) : notEffect r = .error (.stackUnderflow r.tp) := by
  simp only [notEffect, popOne_error.mpr ⟨h, rfl⟩]

theorem binEffect_of_two {right left : Bool} {rest : List Bool} (op : BinOp) (h : r.stk = right :: left :: rest) :
    binEffect op r = .ok (binGate op left right :: rest,
      .apply r.tp op left right (binGate op left right) (snapshot (binGate op left right :: rest))) := by
  simp only [binEffect, popTwo_ok.mpr h]

theorem binEffect_of_short (op : BinOp) (h : r.stk.length < 2) : binEffect op r = .error (.stackUnderflow r.tp) := by
  simp only [binEffect, popTwo_error.mpr ⟨h, rfl⟩]

end

/-! ### The effect of a token, whichever it is -/

/-- The effect that both the token's meaning (`exec_token_eq`) and the value of a program (`tokenStack_eq`) rest on. -/
def tokenEffect (sd : Nat) (i : Instr) (r : Run) : Except EvFault (List Bool × StepRecord) :=
  match i with
  | .tokVar k => varEffect sd r k
  | .tokAnd   => binEffect .and r
  | .tokOr    => binEffect .or r
  | .tokXor   => binEffect .xor r
  | .tokNot   => notEffect r
  | _         => .error (.badToken r.tp)

theorem exec_token_eq {i : Instr} (hi : i.isAlu = false) {s : State} {r : Run} (hrun : s.run = some r) :
    exec i s = .next (runToken s r (tokenEffect s.params.sd i r)) := by
  have inPass_of_run : ∀ k, inPass s k = .next (k r) := fun k => inPass_next.mpr ⟨r, hrun, rfl⟩
  cases i with
  | tokVar k => exact inPass_of_run _
  | tokAnd => exact inPass_of_run _
  | tokOr => exact inPass_of_run _
  | tokXor => exact inPass_of_run _
  | tokNot => exact inPass_of_run _
  | tokReserved t => exact inPass_of_run _
  | _ => cases hi

theorem tokenStack_eq (sd : Nat) (t : Token) (r : Run) :
    tokenStack sd t r = (tokenEffect sd (decodeToken t) r).map Prod.fst := by
  unfold tokenStack
  cases decodeToken t <;> rfl

/-- The fault is one that a token raises, with this TP as its info (R254 to R256, R258). -/
def RaisedAt (tp : Nat) (f : EvFault) : Prop := f = .stackOverflow tp ∨ f = .stackUnderflow tp ∨ f = .badToken tp

section
variable (sd : Nat) (r : Run)

/-- The effect is reported under the TP of `r`: by its record, or as the info of its fault. -/
def NamesTp : Except EvFault (List Bool × StepRecord) → Prop
  | .ok (_, record) => recordTp record = some r.tp
  | .error f        => RaisedAt r.tp f

theorem varEffect_namesTp (k : BitVec 5) : NamesTp r (varEffect sd r k) := by
  obtain room | full := Nat.lt_or_ge r.stk.length sd
  · rw [varEffect_of_room room]
    rfl
  · rw [varEffect_of_full full]
    exact .inl rfl

theorem notEffect_namesTp : NamesTp r (notEffect r) := by
  cases hstk : r.stk with
  | nil =>
    rw [notEffect_of_nil hstk]
    exact .inr (.inl rfl)
  | cons v rest =>
    rw [notEffect_of_cons hstk]
    rfl

theorem binEffect_namesTp (op : BinOp) : NamesTp r (binEffect op r) := by
  match hstk : r.stk with
  | right :: left :: rest =>
    rw [binEffect_of_two op hstk]
    rfl
  | [] | [_] =>
    rw [binEffect_of_short op (by simp [hstk])]
    exact .inr (.inl rfl)

/-- Whatever a token does is reported under its own TP. -/
theorem tokenEffect_namesTp (i : Instr) : NamesTp r (tokenEffect sd i r) := by
  unfold tokenEffect
  split
  · exact varEffect_namesTp sd r _
  · exact binEffect_namesTp r .and
  · exact binEffect_namesTp r .or
  · exact binEffect_namesTp r .xor
  · exact notEffect_namesTp r
  · exact .inr (.inr rfl)

end

/-! ### The obligations -/

/-- Settles O36. -/
theorem varPushesItsSlot : Obligations.VarPushesItsSlot := by
  intro s r k hrun room
  rw [exec_token_eq rfl hrun, tokenEffect, varEffect_of_room room]
  rfl

/-- Settles O37. -/
theorem operatorsApplyTheirGate : Obligations.OperatorsApplyTheirGate := by
  intro s r x y rest hrun
  refine ⟨fun hstk => ?_, fun hstk => ?_⟩
  · rw [exec_token_eq rfl hrun, tokenEffect, notEffect_of_cons hstk]
    rfl
  · simp only [List.forall_mem_cons, List.not_mem_nil, false_implies, implies_true, and_true]
    refine ⟨?_, ?_, ?_⟩
    · rw [exec_token_eq rfl hrun, tokenEffect, binEffect_of_two .and hstk]
      rfl
    · rw [exec_token_eq rfl hrun, tokenEffect, binEffect_of_two .or hstk]
      rfl
    · rw [exec_token_eq rfl hrun, tokenEffect, binEffect_of_two .xor hstk, binGate, gateXor_eq]
      rfl

/-- Settles O38. -/
theorem tokenFaultsEndTheCommand : Obligations.TokenFaultsEndTheCommand := by
  intro s r hrun
  refine ⟨fun empty => ?_, fun short => ?_, fun full k => ?_, fun t => ?_⟩
  · rw [exec_token_eq rfl hrun, tokenEffect, notEffect_of_nil empty]
    rfl
  · simp only [List.forall_mem_cons, List.not_mem_nil, false_implies, implies_true, and_true]
    refine ⟨?_, ?_, ?_⟩
    · rw [exec_token_eq rfl hrun, tokenEffect, binEffect_of_short .and short]
      rfl
    · rw [exec_token_eq rfl hrun, tokenEffect, binEffect_of_short .or short]
      rfl
    · rw [exec_token_eq rfl hrun, tokenEffect, binEffect_of_short .xor short]
      rfl
  · rw [exec_token_eq rfl hrun, tokenEffect, varEffect_of_full full.ge]
    rfl
  · rw [exec_token_eq rfl hrun]
    rfl

end Sys2Proof.Machine
end

section
/-! SUPPORT. The step of the evaluator by the host's entry it meets, the start of each command, and the rows of a truth table
(46_postfix_machine.md R250 to R252, R259, R260). From these O4, O39, O40 and O41. -/

namespace Sys2Proof.Machine

/-! ### The step, by what the host presents -/

section
variable {s : State}

theorem step_of_nothing_presented (hs : s.host = []) : step s = evTick s := by simp only [step, machineStep, hs]

theorem step_of_wait {rest : List HostAction} (hs : s.host = .wait :: rest) : step s = evTick { s with host := rest } := by
  simp only [step, machineStep, hs]

theorem step_of_ev_running {r : Run} {req : EvRequest} {rest : List HostAction} (hs : s.host = .ev req :: rest)
    (hrun : s.run = some r) : step s = evAdvance r s := by
  simp only [step, machineStep, hs, hrun]

theorem step_of_reset_running {r : Run} {rest : List HostAction} (hs : s.host = .reset :: rest)
    (hrun : s.run = some r) : step s = evAdvance r s := by
  simp only [step, machineStep, hs, hrun]

theorem step_of_ev_idle {req : EvRequest} {rest : List HostAction} (hs : s.host = .ev req :: rest)
    (hrun : s.run = none) : step s = evStart req { s with host := rest } := by
  simp only [step, machineStep, hs, hrun]

theorem evTick_running {r : Run} (hrun : s.run = some r) : evTick s = evAdvance r s := by simp only [evTick, hrun]

theorem evTick_idle (hrun : s.run = none) : evTick s = .next s := by simp only [evTick, hrun]

end

theorem evAdvance_of_token {r : Run} {t : Token} (htok : r.tm[r.tp]? = some t) (s : State) :
    evAdvance r s = exec (decodeToken t) s := by
  simp only [evAdvance, htok]

theorem evAdvance_of_end {r : Run} (hend : r.tm[r.tp]? = none) (s : State) : evAdvance r s = .next (evFinish r s) := by
  simp only [evAdvance, hend]

/-- Settles O4. -/
theorem stepRunsTheTokenAtTp : Obligations.StepRunsTheTokenAtTp := by
  intro s r t hrun htok
  refine ⟨fun hs => ?_, fun rest hs => ?_, fun req rest hs => ?_, fun rest hs => ?_⟩
  · rw [step_of_nothing_presented hs, evTick_running hrun, evAdvance_of_token htok]
  · rw [step_of_wait hs, evTick_running (s := { s with host := rest }) hrun, evAdvance_of_token htok]
  · rw [step_of_ev_running hs hrun, evAdvance_of_token htok]
  · rw [step_of_reset_running hs hrun, evAdvance_of_token htok]

/-! ### The start of a command -/

theorem loadProgram_of_long {req : EvRequest} (s : State) (long : s.params.lmax < plenPort s.params req)
    (k : List Token → State) : loadProgram req s k = .next (evRaise (.progTooLong (plenPort s.params req)) s) := if_pos long

theorem loadProgram_of_fits {req : EvRequest} (s : State) (fits : plenPort s.params req ≤ s.params.lmax)
    (supplied : plenPort s.params req ≤ req.prog.length) (k : List Token → State) :
    loadProgram req s k = .next (k (req.prog.take (plenPort s.params req))) := by
  rw [loadProgram, if_neg fits.not_gt, if_neg supplied.not_gt]

/-- With an admitted number of variables only the program check is left (R259). -/
theorem startTable_of_vars {req : EvRequest} (s : State) (some_var : 1 ≤ req.nvin.toNat)
    (vars_fit : req.nvin.toNat ≤ s.params.ttMaxVars) :
    startTable req s = loadProgram req s fun tm => { s with
      run := some (freshRun (.table req.nvin.toNat 0 (blankRows s.params)) tm (rowAssignment req.nvin.toNat 0)) } := by
  rw [startTable, if_neg (by omega), if_neg vars_fit.not_gt]

section
variable {s : State} {req : EvRequest} {rest : List HostAction} (hs : s.host = .ev req :: rest) (hrun : s.run = none)
include hs hrun

theorem step_of_reserved (hcmd : req.cmd = 3#2) : step s = .next (evRaise (.badCommand 3#2) { s with host := rest }) := by
  rw [step_of_ev_idle hs hrun]
  simp [evStart, hcmd]

theorem step_eq_startEval (hcmd : req.cmd = 0#2) : step s = startEval req { s with host := rest } := by
  rw [step_of_ev_idle hs hrun]
  simp [evStart, hcmd]

theorem step_eq_startStep (hcmd : req.cmd = 1#2) : step s = startStep req { s with host := rest } := by
  rw [step_of_ev_idle hs hrun]
  simp [evStart, hcmd]

theorem step_eq_startTable (hcmd : req.cmd = 2#2) : step s = startTable req { s with host := rest } := by
  rw [step_of_ev_idle hs hrun]
  simp [evStart, hcmd]

theorem step_of_long (hcmd : req.cmd = 0#2 ∨ req.cmd = 1#2) (long : s.params.lmax < plenPort s.params req) :
    step s = .next (evRaise (.progTooLong (plenPort s.params req)) { s with host := rest }) := by
  obtain hcmd | hcmd := hcmd
  · rw [step_eq_startEval hs hrun hcmd]
    exact loadProgram_of_long { s with host := rest } long _
  · rw [step_eq_startStep hs hrun hcmd]
    exact loadProgram_of_long { s with host := rest } long _

theorem step_of_table_long (hcmd : req.cmd = 2#2) (some_var : 1 ≤ req.nvin.toNat)
    (vars_fit : req.nvin.toNat ≤ s.params.ttMaxVars) (long : s.params.lmax < plenPort s.params req) :
    step s = .next (evRaise (.progTooLong (plenPort s.params req)) { s with host := rest }) := by
  rw [step_eq_startTable hs hrun hcmd, startTable_of_vars { s with host := rest } some_var vars_fit]
  exact loadProgram_of_long { s with host := rest } long _

section
variable (fits : plenPort s.params req ≤ s.params.lmax) (supplied : plenPort s.params req ≤ req.prog.length)
include fits supplied

theorem step_of_eval (hcmd : req.cmd = 0#2) : step s = .next { s with
    host := rest, run := some (freshRun .eval (req.prog.take (plenPort s.params req)) req.asgin) } := by
  rw [step_eq_startEval hs hrun hcmd]
  exact loadProgram_of_fits { s with host := rest } fits supplied _

theorem step_of_step (hcmd : req.cmd = 1#2) : step s = .next { s with
    host := rest, etrace := [], run := some (freshRun .step (req.prog.take (plenPort s.params req)) req.asgin) } := by
  rw [step_eq_startStep hs hrun hcmd]
  exact loadProgram_of_fits { s with host := rest } fits supplied _

theorem step_of_table (hcmd : req.cmd = 2#2) (some_var : 1 ≤ req.nvin.toNat)
    (vars_fit : req.nvin.toNat ≤ s.params.ttMaxVars) : step s = .next { s with
    host := rest
    run := some (freshRun (.table req.nvin.toNat 0 (blankRows s.params)) (req.prog.take (plenPort s.params req))
      (rowAssignment req.nvin.toNat 0)) } := by
  rw [step_eq_startTable hs hrun hcmd, startTable_of_vars { s with host := rest } some_var vars_fit]
  exact loadProgram_of_fits { s with host := rest } fits supplied _

end
end

/-- Settles O39. -/
theorem evalAndStepStart : Obligations.EvalAndStepStart := by
  rintro s req rest _ hs hrun rfl
  exact ⟨step_of_reserved hs hrun, step_of_long hs hrun, fun hcmd fits supplied => step_of_eval hs hrun fits supplied hcmd,
    fun hcmd fits supplied => step_of_step hs hrun fits supplied hcmd⟩

/-! ### The rows of a truth table -/

theorem getLsbD_rowAssignment (n row j : Nat) : (rowAssignment n row).getLsbD j =
    (decide (j < Config.NV) && (decide (j < n) && row.testBit (n - 1 - j))) := getLsbD_tabulate _ _ _

theorem rowAssignment_zero (n : Nat) : rowAssignment n 0 = 0#32 := by
  apply BitVec.eq_of_getLsbD_eq
  intro j _
  rw [getLsbD_rowAssignment, Nat.zero_testBit, Bool.and_false, Bool.and_false, BitVec.getLsbD_zero]

/-- Settles O40: the checks in R259's order; row 0 has no variable set. -/
theorem tableStartChecksInOrder : Obligations.TableStartChecksInOrder := by
  rintro s req rest _ hs hrun rfl hcmd
  have some_var : req.nvin ≠ 0#6 → 1 ≤ req.nvin.toNat := fun h =>
    Nat.pos_of_ne_zero fun zero => h (BitVec.eq_of_toNat_eq zero)
  refine ⟨fun no_var => ?_, fun many => ?_, fun h vars_fit long => ?_, fun h vars_fit fits supplied => ?_⟩
  · rw [step_eq_startTable hs hrun hcmd, startTable, if_pos (by rw [no_var]; rfl)]
    rfl
  · rw [step_eq_startTable hs hrun hcmd, startTable, if_neg (by omega), if_pos many]
    rfl
  · exact step_of_table_long hs hrun hcmd (some_var h) vars_fit long
  · rw [step_of_table hs hrun fits supplied hcmd (some_var h) vars_fit, rowAssignment_zero]
    rfl

/-- Settles O41: slots from n on are 0, and a slot below n is below NV. -/
theorem rowsEnumerateMostSignificantFirst : Obligations.RowsEnumerateMostSignificantFirst := by
  intro n row j hn
  rw [getLsbD_rowAssignment]
  split_ifs with slot
  · have in_range : j < Config.NV := slot.trans_le hn
    rw [decide_eq_true in_range, decide_eq_true slot, Nat.testBit_eq_decide_div_mod_eq, Nat.shiftRight_eq_div_pow]
    rfl
  · rw [decide_eq_false slot, Bool.false_and, Bool.and_false]

end Sys2Proof.Machine
end

section
/-! SUPPORT. The value of a program (46_postfix_machine.md R252 to R258): how a pass goes through its tokens, and that its
depth, and so whether and how it faults, is a function of the tokens alone. From these O47. -/

namespace Sys2Proof.Machine

/-! ### A pass, token by token -/

/-- The command in progress as far as a token's effect reads it. -/
def passRun (asg : BitVec Config.NV) (tp : Nat) (stk : List Bool) : Run :=
  { kind := .eval, tm := [], tp := tp, stk := stk, asg := asg }

/-- A token reads neither which command is in progress nor the program. -/
theorem tokenEffect_passRun (sd : Nat) (i : Instr) (r : Run) :
    tokenEffect sd i (passRun r.asg r.tp r.stk) = tokenEffect sd i r := by
  cases i <;> rfl

/-- The value that a pass with this end leaves, or its fault (R257). -/
def passResult : Except EvFault (List Bool) → Except EvFault Bool
  | .ok [b]  => .ok b
  | .ok stk  => .error (.finalDepth stk.length)
  | .error f => .error f

theorem passValue_eq_passResult (sd : Nat) (asg : BitVec Config.NV) (prog : List Token) :
    passValue sd asg prog = passResult (passStack sd asg prog 0 []) := by
  unfold passValue
  match passStack sd asg prog 0 [] with
  | .ok [] | .ok [_] | .ok (_ :: _ :: _) | .error _ => rfl

section
variable {sd : Nat} {asg : BitVec Config.NV} {t : Token} {tp : Nat} {stk : List Bool}

@[simp] theorem passStack_nil : passStack sd asg [] tp stk = .ok stk := rfl

theorem passStack_cons_of_ok {stk' : List Bool} {record : StepRecord}
    (h : tokenEffect sd (decodeToken t) (passRun asg tp stk) = .ok (stk', record)) (rest : List Token) :
    passStack sd asg (t :: rest) tp stk = passStack sd asg rest (tp + 1) stk' := by
  have done : tokenStack sd t (passRun asg tp stk) = .ok stk' := by rw [tokenStack_eq, h]; rfl
  simp only [passRun] at done
  simp only [passStack, done]

theorem passStack_cons_of_error {f : EvFault}
    (h : tokenEffect sd (decodeToken t) (passRun asg tp stk) = .error f) (rest : List Token) :
    passStack sd asg (t :: rest) tp stk = .error f := by
  have faults : tokenStack sd t (passRun asg tp stk) = .error f := by rw [tokenStack_eq, h]; rfl
  simp only [passRun] at faults
  simp only [passStack, faults]

end

theorem passStack_append {sd : Nat} {asg : BitVec Config.NV} {xs : List Token} {tp : Nat} {stk stk' : List Bool}
    (h : passStack sd asg xs tp stk = .ok stk') (ys : List Token) :
    passStack sd asg (xs ++ ys) tp stk = passStack sd asg ys (tp + xs.length) stk' := by
  induction xs generalizing tp stk with
  | nil =>
    cases h
    rfl
  | cons t rest ih =>
    cases heff : tokenEffect sd (decodeToken t) (passRun asg tp stk) with
    | error f =>
      rw [passStack_cons_of_error heff] at h
      cases h
    | ok done =>
      rw [passStack_cons_of_ok heff] at h
      rw [List.cons_append, passStack_cons_of_ok heff, ih h, List.length_cons, Nat.add_right_comm, Nat.add_assoc]

/-! ### The depth of the stack is a function of the tokens -/

/-- SP after a token at `tp` on a stack of `depth` values, or the token's fault. -/
def tokenDepth (sd tp : Nat) (i : Instr) (depth : Nat) : Except EvFault Nat :=
  match i with
  | .tokVar _                 => if sd ≤ depth then .error (.stackOverflow tp) else .ok (depth + 1)
  | .tokNot                   => if depth < 1 then .error (.stackUnderflow tp) else .ok depth
  | .tokAnd | .tokOr | .tokXor => if depth < 2 then .error (.stackUnderflow tp) else .ok (depth - 1)
  | _                         => .error (.badToken tp)

/-- SP after the tokens from `tp` on, or the first fault. -/
def passDepth (sd : Nat) : (prog : List Token) → (tp depth : Nat) → Except EvFault Nat
  | [], _, depth         => .ok depth
  | t :: rest, tp, depth =>
    match tokenDepth sd tp (decodeToken t) depth with
    | .ok depth' => passDepth sd rest (tp + 1) depth'
    | .error f   => .error f

section
variable (sd : Nat) (r : Run)

theorem varEffect_depth (k : BitVec 5) :
    (varEffect sd r k).map (·.1.length) = tokenDepth sd r.tp (.tokVar k) r.stk.length := by
  obtain room | full := Nat.lt_or_ge r.stk.length sd
  · rw [varEffect_of_room room, tokenDepth, if_neg room.not_ge]
    rfl
  · rw [varEffect_of_full full, tokenDepth, if_pos full]
    rfl

theorem notEffect_depth : (notEffect r).map (·.1.length) = tokenDepth sd r.tp .tokNot r.stk.length := by
  cases hstk : r.stk with
  | nil =>
    rw [notEffect_of_nil hstk]
    rfl
  | cons v rest =>
    rw [notEffect_of_cons hstk, tokenDepth, if_neg (by simp)]
    rfl

theorem binEffect_depth (op : BinOp) :
    (binEffect op r).map (·.1.length) = tokenDepth sd r.tp .tokAnd r.stk.length := by
  match hstk : r.stk with
  | right :: left :: rest =>
    rw [binEffect_of_two op hstk, tokenDepth, if_neg (by simp)]
    rfl
  | [] | [_] =>
    rw [binEffect_of_short op (by simp [hstk])]
    rfl

/-- What a token does to SP does not ask for the values on the stack or in the slots. -/
theorem tokenEffect_depth (i : Instr) :
    (tokenEffect sd i r).map (·.1.length) = tokenDepth sd r.tp i r.stk.length := by
  cases i with
  | tokVar k => exact varEffect_depth sd r k
  | tokAnd => exact binEffect_depth sd r .and
  | tokOr => exact binEffect_depth sd r .or
  | tokXor => exact binEffect_depth sd r .xor
  | tokNot => exact notEffect_depth sd r
  | _ => rfl

end

theorem passStack_depth (sd : Nat) (asg : BitVec Config.NV) (prog : List Token) (tp : Nat) (stk : List Bool) :
    (passStack sd asg prog tp stk).map List.length = passDepth sd prog tp stk.length := by
  induction prog generalizing tp stk with
  | nil => rfl
  | cons t rest ih =>
    have depth : _ = tokenDepth sd tp (decodeToken t) stk.length := tokenEffect_depth sd (passRun asg tp stk) (decodeToken t)
    unfold passDepth
    rw [← depth]
    cases heff : tokenEffect sd (decodeToken t) (passRun asg tp stk) with
    | error f =>
      rw [passStack_cons_of_error heff]
      rfl
    | ok done =>
      rw [passStack_cons_of_ok heff]
      exact ih (tp + 1) done.1

/-- The fault of a pass that ends with this depth (R257). -/
def depthFault : Except EvFault Nat → Option EvFault
  | .ok 1    => none
  | .ok sp   => some (.finalDepth sp)
  | .error f => some f

theorem passResult_eq_error_iff (o : Except EvFault (List Bool)) (f : EvFault) :
    passResult o = .error f ↔ depthFault (o.map List.length) = some f := by
  match o with
  | .ok [] | .ok [_] | .ok (_ :: _ :: _) | .error _ => simp [passResult, depthFault, Except.map]

/-- R261: whether a program faults, and how, is decided by its tokens. -/
theorem passValue_eq_error_iff {sd : Nat} {asg : BitVec Config.NV} {prog : List Token} {f : EvFault} :
    passValue sd asg prog = .error f ↔ depthFault (passDepth sd prog 0 0) = some f := by
  rw [passValue_eq_passResult, passResult_eq_error_iff, passStack_depth, List.length_nil]

theorem passValue_error_of_error {sd : Nat} {asg : BitVec Config.NV} {prog : List Token} {f : EvFault}
    (h : passValue sd asg prog = .error f) (asg' : BitVec Config.NV) : passValue sd asg' prog = .error f :=
  passValue_eq_error_iff.mpr (passValue_eq_error_iff.mp h)

/-! ### No overflow -/

section
variable {sd tp tp' depth depth' : Nat} {i : Instr}

/-- Each token raises SP by at most 1 (R258). -/
theorem tokenDepth_le_succ (h : tokenDepth sd tp i depth = .ok depth') : depth' ≤ depth + 1 := by
  cases i with
  | tokVar _ | tokNot | tokAnd | tokOr | tokXor =>
    simp only [tokenDepth] at h
    split_ifs at h
    cases h
    omega
  | _ => cases h

/-- Only VAR on a full stack overflows. -/
theorem sd_le_of_tokenDepth_overflow (h : tokenDepth sd tp i depth = .error (.stackOverflow tp')) : sd ≤ depth := by
  cases i with
  | tokVar _ =>
    simp only [tokenDepth] at h
    split_ifs at h with full
    exact full
  | tokNot | tokAnd | tokOr | tokXor =>
    simp only [tokenDepth] at h
    split_ifs at h
    cases h
  | _ => cases h

end

theorem passDepth_ne_overflow {sd : Nat} {prog : List Token} {tp depth : Nat} (h : depth + prog.length ≤ sd) (tp' : Nat) :
    passDepth sd prog tp depth ≠ .error (.stackOverflow tp') := by
  induction prog generalizing tp depth with
  | nil => exact fun overflow => nomatch overflow
  | cons t rest ih =>
    rw [List.length_cons] at h
    unfold passDepth
    split
    next depth' hd =>
      have := tokenDepth_le_succ hd
      exact ih (by omega)
    next f hd =>
      rintro ⟨⟩
      have := sd_le_of_tokenDepth_overflow hd
      omega

theorem depthFault_ok_ne_overflow (depth tp : Nat) : depthFault (.ok depth) ≠ some (.stackOverflow tp) := by
  match depth with
  | 0 | 1 | _ + 2 => exact fun overflow => nomatch overflow

theorem lmax_le_sd_of_legal {p : Params} (hp : p.legal = true) : p.lmax ≤ p.sd := by
  simp only [Params.legal, Bool.and_eq_true, decide_eq_true_iff] at hp
  omega

/-- Settles O47: SP is at most the number of tokens executed, which LMAX ≤ SD bounds. -/
theorem stackNeverOverflows : Obligations.StackNeverOverflows := by
  refine ⟨fun tp v stk => if_pos le_rfl, fun p asg prog tp hp hlen overflow => ?_⟩
  have fits : 0 + prog.length ≤ p.sd := by
    have := lmax_le_sd_of_legal hp
    omega
  have never := passDepth_ne_overflow (tp := 0) fits tp
  rw [passValue_eq_error_iff] at overflow
  cases hd : passDepth p.sd prog 0 0 with
  | error f =>
    rw [hd] at overflow never
    cases overflow
    exact never rfl
  | ok depth =>
    rw [hd] at overflow
    exact depthFault_ok_ne_overflow depth tp overflow

end Sys2Proof.Machine
end

section
/-! SUPPORT. The stepping machine against the value of a program (46_postfix_machine.md R252, R257, R262): L + 1 steps of a
pass end as `passValue` says, with the records of the completed tokens. From these O42, O43 and O44. -/

namespace Sys2Proof.Machine

/-! ### The records of a pass -/

/-- The records of the tokens that a pass completes (R262); `runSteps_pass` says that a STEP appends them. -/
def passRecords (sd : Nat) (asg : BitVec Config.NV) : (prog : List Token) → (tp : Nat) → (stk : List Bool) → List StepRecord
  | [], _, _          => []
  | t :: rest, tp, stk =>
    match tokenEffect sd (decodeToken t) (passRun asg tp stk) with
    | .ok (stk', record) => record :: passRecords sd asg rest (tp + 1) stk'
    | .error _           => []

section
variable {sd : Nat} {asg : BitVec Config.NV}

theorem passRecords_cons_of_ok {t : Token} {tp : Nat} {stk stk' : List Bool} {record : StepRecord}
    (h : tokenEffect sd (decodeToken t) (passRun asg tp stk) = .ok (stk', record)) (rest : List Token) :
    passRecords sd asg (t :: rest) tp stk = record :: passRecords sd asg rest (tp + 1) stk' := by
  simp only [passRecords, h]

theorem passRecords_cons_of_error {t : Token} {tp : Nat} {stk : List Bool} {f : EvFault}
    (h : tokenEffect sd (decodeToken t) (passRun asg tp stk) = .error f) (rest : List Token) :
    passRecords sd asg (t :: rest) tp stk = [] := by
  simp only [passRecords, h]

/-- The k-th record is that of the k-th token. -/
theorem recordTp_passRecords {prog : List Token} {tp : Nat} {stk : List Bool} {k : Nat}
    (hk : k < (passRecords sd asg prog tp stk).length) :
    (passRecords sd asg prog tp stk)[k]?.bind recordTp = some (tp + k) := by
  induction prog generalizing tp stk k with
  | nil => cases hk
  | cons t rest ih =>
    have tp_named := tokenEffect_namesTp sd (passRun asg tp stk) (decodeToken t)
    cases heff : tokenEffect sd (decodeToken t) (passRun asg tp stk) with
    | error f =>
      rw [passRecords_cons_of_error heff] at hk
      cases hk
    | ok done =>
      rw [heff] at tp_named
      rw [passRecords_cons_of_ok heff] at hk ⊢
      cases k with
      | zero => exact tp_named
      | succ k => rw [List.getElem?_cons_succ, ih (Nat.lt_of_succ_lt_succ hk), Nat.add_right_comm, Nat.add_assoc]

theorem length_passRecords_of_ok {prog : List Token} {tp : Nat} {stk stk' : List Bool}
    (h : passStack sd asg prog tp stk = .ok stk') : (passRecords sd asg prog tp stk).length = prog.length := by
  induction prog generalizing tp stk with
  | nil => rfl
  | cons t rest ih =>
    cases heff : tokenEffect sd (decodeToken t) (passRun asg tp stk) with
    | error f =>
      rw [passStack_cons_of_error heff] at h
      cases h
    | ok done =>
      rw [passStack_cons_of_ok heff] at h
      rw [passRecords_cons_of_ok heff, List.length_cons, ih h, List.length_cons]

/-- A fault stands at the TP that the records have reached. -/
theorem raisedAt_of_passStack_error {prog : List Token} {tp : Nat} {stk : List Bool} {f : EvFault}
    (h : passStack sd asg prog tp stk = .error f) : RaisedAt (tp + (passRecords sd asg prog tp stk).length) f := by
  induction prog generalizing tp stk with
  | nil => cases h
  | cons t rest ih =>
    have tp_named := tokenEffect_namesTp sd (passRun asg tp stk) (decodeToken t)
    cases heff : tokenEffect sd (decodeToken t) (passRun asg tp stk) with
    | error f' =>
      rw [heff] at tp_named
      rw [passStack_cons_of_error heff] at h
      cases h
      rw [passRecords_cons_of_error heff]
      exact tp_named
    | ok done =>
      rw [passStack_cons_of_ok heff] at h
      rw [passRecords_cons_of_ok heff, List.length_cons, Nat.add_comm _ 1, ← Nat.add_assoc]
      exact ih h

end

/-! ### Several steps -/

section
variable {s t : State}

theorem runSteps_succ_of_step (h : step s = .next t) (k : Nat) : runSteps (k + 1) s = runSteps k t := by
  simp only [runSteps, h, andThen]

theorem runSteps_add {j : Nat} (h : runSteps j s = .next t) (k : Nat) : runSteps (j + k) s = runSteps k t := by
  induction j generalizing s with
  | zero =>
    cases h
    rw [Nat.zero_add]
  | succ j ih =>
    cases hstep : step s with
    | next u =>
      rw [runSteps_succ_of_step hstep] at h
      rw [Nat.add_right_comm, runSteps_succ_of_step hstep, ih h]
    | fault r =>
      simp only [runSteps, hstep, andThen] at h
      cases h
    | refused r =>
      simp only [runSteps, hstep, andThen] at h
      cases h

/-- An idle machine to which nothing is presented stays as it is. -/
theorem runSteps_idle (hhost : s.host = []) (hrun : s.run = none) (k : Nat) : runSteps k s = .next s := by
  induction k with
  | zero => rfl
  | succ k ih => rw [runSteps_succ_of_step ((step_of_nothing_presented hhost).trans (evTick_idle hrun)), ih]

end

/-! ### A pass of the stepping machine -/

/-- What the end of a pass makes of the state: its result is used, or its fault is taken. -/
def endPass (r : Run) (result : Except EvFault Bool) (s : State) : State :=
  match result with
  | .ok b    => finishPass r b s
  | .error f => evRaise f s

/-- A STEP has appended these records (R262). -/
def recorded (kind : PassKind) (records : List StepRecord) (s : State) : State :=
  { s with etrace := if kind = .step then s.etrace ++ records else s.etrace }

@[simp] theorem recorded_nil (kind : PassKind) (s : State) : recorded kind [] s = s := by
  simp only [recorded, List.append_nil, ite_self]

theorem recorded_of_ne_step {kind : PassKind} (h : kind ≠ .step) (records : List StepRecord) (s : State) :
    recorded kind records s = s := by
  simp only [recorded, if_neg h]

theorem evFinish_eq_endPass (r : Run) (s : State) : evFinish r s = endPass r (passResult (.ok r.stk)) s := by
  unfold evFinish
  match r.stk with
  | [] | [_] | _ :: _ :: _ => rfl

/-- The end of a pass asks neither for the command's stack nor for its TP, and overwrites the command. -/
theorem endPass_of_advanced (r : Run) (stk : List Bool) (tp : Nat) (result : Except EvFault Bool) (s : State)
    (run : Option Run) : endPass { r with stk := stk, tp := tp } result { s with run := run } = endPass r result s := by
  obtain ⟨kind, tm, _, _, asg⟩ := r
  cases result with
  | error f => rfl
  | ok b => cases kind <;> rfl

theorem recorded_tokenDone (r : Run) (stk : List Bool) (record : StepRecord) (records : List StepRecord) (s : State) :
    recorded r.kind records (tokenDone r stk record s) =
      { recorded r.kind (record :: records) s with run := some { r with stk := stk, tp := r.tp + 1 } } := by
  by_cases h : r.kind = .step
  · simp [recorded, tokenDone, h]
  · simp [recorded, tokenDone, h]

/-- The tokens from TP on and the finish: as `passStack` says, with the completed tokens' records. -/
theorem runSteps_pass {s : State} {r : Run} {rest : List Token} (hhost : s.host = []) (hrun : s.run = some r)
    (hrest : r.tm.drop r.tp = rest) : runSteps (rest.length + 1) s =
      .next (endPass r (passResult (passStack s.params.sd r.asg rest r.tp r.stk))
        (recorded r.kind (passRecords s.params.sd r.asg rest r.tp r.stk) s)) := by
  induction rest generalizing s r with
  | nil =>
    have hend : r.tm[r.tp]? = none := List.getElem?_eq_none (List.drop_eq_nil_iff.mp hrest)
    have hstep : step s = .next (evFinish r s) := by
      rw [step_of_nothing_presented hhost, evTick_running hrun, evAdvance_of_end hend]
    rw [List.length_nil, runSteps_succ_of_step hstep, evFinish_eq_endPass, passRecords, recorded_nil]
    rfl
  | cons t rest ih =>
    have htok : r.tm[r.tp]? = some t := by rw [← List.head?_drop, hrest, List.head?_cons]
    have hstep : step s = .next (runToken s r (tokenEffect s.params.sd (decodeToken t) r)) := by
      rw [step_of_nothing_presented hhost, evTick_running hrun, evAdvance_of_token htok,
        exec_token_eq (decodeToken_isAlu t) hrun]
    rw [List.length_cons, runSteps_succ_of_step hstep]
    cases heff : tokenEffect s.params.sd (decodeToken t) r with
    | error f =>
      rw [← tokenEffect_passRun] at heff
      rw [passStack_cons_of_error heff, passRecords_cons_of_error heff, recorded_nil]
      exact runSteps_idle (s := evRaise f s) hhost rfl _
    | ok done =>
      obtain ⟨stk, record⟩ := done
      have hrest' : r.tm.drop (r.tp + 1) = rest := by rw [← List.tail_drop, hrest, List.tail_cons]
      have tail_run := ih (s := tokenDone r stk record s) (r := { r with stk := stk, tp := r.tp + 1 }) hhost rfl hrest'
      rw [← tokenEffect_passRun] at heff
      rw [passStack_cons_of_ok heff, passRecords_cons_of_ok heff]
      refine tail_run.trans (congrArg _ ?_)
      exact (congrArg (endPass _ _) (recorded_tokenDone r stk record _ s)).trans (endPass_of_advanced r stk _ _ _ _)

/-- A whole pass: L + 1 steps from its fresh command (R251, R259). -/
theorem runSteps_freshRun {s : State} {kind : PassKind} {tm : List Token} {asg : BitVec Config.NV} (hhost : s.host = [])
    (hrun : s.run = some (freshRun kind tm asg)) : runSteps (tm.length + 1) s =
      .next (endPass (freshRun kind tm asg) (passValue s.params.sd asg tm)
        (recorded kind (passRecords s.params.sd asg tm 0 []) s)) := by
  rw [passValue_eq_passResult]
  exact runSteps_pass hhost hrun List.drop_zero

/-- A command that is accepted for a pass: one step more (R251). -/
theorem runSteps_of_start {s t : State} {kind : PassKind} {tm : List Token} {asg : BitVec Config.NV} (hstep : step s = .next t)
    (hhost : t.host = []) (hrun : t.run = some (freshRun kind tm asg)) : runSteps (tm.length + 2) s =
      .next (endPass (freshRun kind tm asg) (passValue t.params.sd asg tm)
        (recorded kind (passRecords t.params.sd asg tm 0 []) t)) :=
  (runSteps_succ_of_step hstep _).trans (runSteps_freshRun hhost hrun)

/-! ### EVAL and STEP -/

/-- The state an accepted EVAL ends in, by the program's value or fault (R257, 60_exceptions.md R296). -/
def evalEnd (s : State) : Except EvFault Bool → State
  | .ok b    => { s with host := [], out := b, efault := none }
  | .error f => { s with host := [], efault := some f }

/-- The state an accepted STEP ends in: as an EVAL, with the records in ETRACE (R262). -/
def stepEnd (s : State) (records : List StepRecord) : Except EvFault Bool → State
  | .ok b    => { s with host := [], out := b, efault := none, etrace := records ++ [.final b] }
  | .error f => { s with host := [], efault := some f, etrace := records }

@[simp] theorem stepEnd_ok_etrace (s : State) (records : List StepRecord) (b : Bool) :
    (stepEnd s records (.ok b)).etrace = records ++ [.final b] := rfl

@[simp] theorem stepEnd_error_etrace (s : State) (records : List StepRecord) (f : EvFault) :
    (stepEnd s records (.error f)).etrace = records := rfl

/-- The two ends differ in ETRACE only. -/
theorem evalEnd_agrees_with_stepEnd {s u : State} (hs : s.run = none) (hu : u.run = none) (hout : s.out = u.out)
    (records : List StepRecord) (result : Except EvFault Bool) :
    (evalEnd s result).run = none ∧ (stepEnd u records result).run = none ∧
      (evalEnd s result).out = (stepEnd u records result).out ∧
      (evalEnd s result).efault = (stepEnd u records result).efault := by
  cases result with
  | error f => exact ⟨hs, hu, hout, rfl⟩
  | ok b => exact ⟨hs, hu, rfl, rfl⟩

section
variable {s : State} {req : EvRequest} (hhost : s.host = [.ev req]) (hrun : s.run = none)
include hhost hrun

/-- An overlong program ends the command at once (R251). -/
theorem runSteps_of_long (hcmd : req.cmd = 0#2 ∨ req.cmd = 1#2) (long : s.params.lmax < plenPort s.params req) (k : Nat) :
    runSteps (k + 1) s = .next (evRaise (.progTooLong (plenPort s.params req)) { s with host := [] }) := by
  rw [runSteps_succ_of_step (step_of_long hhost hrun hcmd long)]
  exact runSteps_idle rfl rfl k

section
variable (fits : plenPort s.params req ≤ s.params.lmax) (supplied : plenPort s.params req ≤ req.prog.length)
include fits supplied

theorem runSteps_of_eval (hcmd : req.cmd = 0#2) : runSteps (plenPort s.params req + 2) s =
    .next (evalEnd s (passValue s.params.sd req.asgin (req.prog.take (plenPort s.params req)))) := by
  have pass := runSteps_of_start (step_of_eval hhost hrun fits supplied hcmd) rfl rfl
  rw [List.length_take_of_le supplied, recorded_of_ne_step (by decide)] at pass
  rw [pass]
  cases passValue s.params.sd req.asgin (req.prog.take (plenPort s.params req)) with
  | error f => simp only [endPass, evRaise, evalEnd, hrun]
  | ok b => simp only [endPass, finishPass, freshRun, completeEval, evalEnd, hrun]

theorem runSteps_of_step (hcmd : req.cmd = 1#2) : runSteps (plenPort s.params req + 2) s =
    .next (stepEnd s (passRecords s.params.sd req.asgin (req.prog.take (plenPort s.params req)) 0 [])
      (passValue s.params.sd req.asgin (req.prog.take (plenPort s.params req)))) := by
  have pass := runSteps_of_start (step_of_step hhost hrun fits supplied hcmd) rfl rfl
  rw [List.length_take_of_le supplied] at pass
  rw [pass]
  cases passValue s.params.sd req.asgin (req.prog.take (plenPort s.params req)) with
  | error f => simp only [endPass, evRaise, recorded, freshRun, if_true, List.nil_append, stepEnd, hrun]
  | ok b => simp only [endPass, finishPass, freshRun, completeEval, recorded, if_true, List.nil_append, stepEnd, hrun]

end
end

/-- Settles O42. -/
theorem evalComputesTheProgramsValue : Obligations.EvalComputesTheProgramsValue := by
  rintro s req _ hhost hrun hcmd rfl fits supplied
  rw [runSteps_of_eval hhost hrun fits supplied hcmd]
  cases passValue s.params.sd req.asgin (req.prog.take (plenPort s.params req)) with
  | error f => rfl
  | ok b => rfl

/-- Settles O43: either both are refused for their length, or both end by the value of the same program. -/
theorem stepEqualsEval : Obligations.StepEqualsEval := by
  rintro s req _ hrun rfl supplied
  obtain fits | long := le_or_gt (plenPort s.params req) s.params.lmax
  · have eval_end := runSteps_of_eval (s := { s with host := [.ev { req with cmd := 0#2 }] }) rfl hrun fits supplied rfl
    have step_end := runSteps_of_step (s := { s with host := [.ev { req with cmd := 1#2 }] }) rfl hrun fits supplied rfl
    exact ⟨_, _, eval_end, step_end, evalEnd_agrees_with_stepEnd hrun hrun rfl _ _⟩
  · have eval_end := runSteps_of_long (s := { s with host := [.ev { req with cmd := 0#2 }] }) rfl hrun (.inl rfl) long
    have step_end := runSteps_of_long (s := { s with host := [.ev { req with cmd := 1#2 }] }) rfl hrun (.inr rfl) long
    exact ⟨_, _, eval_end _, step_end _, rfl, rfl, rfl, rfl⟩

/-- How many tokens a pass of `L` tokens has completed when it takes this fault: all of them at the finish, else those before
the fault's TP (60_exceptions.md R294). -/
def completedBefore (L : Nat) (f : EvFault) : Nat :=
  match f with
  | .finalDepth _ => L
  | _             => (evFaultInfo f).getD 0

theorem length_passRecords_of_fault {sd : Nat} {asg : BitVec Config.NV} {prog : List Token} {f : EvFault}
    (h : passValue sd asg prog = .error f) : (passRecords sd asg prog 0 []).length = completedBefore prog.length f := by
  rw [passValue_eq_passResult] at h
  cases hend : passStack sd asg prog 0 [] with
  | error f' =>
    rw [hend] at h
    cases h
    have raised := raisedAt_of_passStack_error hend
    rw [Nat.zero_add] at raised
    obtain rfl | rfl | rfl := raised <;> rfl
  | ok stk =>
    rw [length_passRecords_of_ok hend]
    rw [hend] at h
    match stk with
    | [] | _ :: _ :: _ =>
      cases h
      rfl

theorem length_passRecords_of_value {sd : Nat} {asg : BitVec Config.NV} {prog : List Token} {b : Bool}
    (h : passValue sd asg prog = .ok b) : (passRecords sd asg prog 0 []).length = prog.length := by
  rw [passValue_eq_passResult] at h
  cases hend : passStack sd asg prog 0 [] with
  | error f =>
    rw [hend] at h
    cases h
  | ok stk => exact length_passRecords_of_ok hend

/-- Settles O44. -/
theorem stepTraceRecordsEveryToken : Obligations.StepTraceRecordsEveryToken := by
  rintro s req _ hhost hrun hcmd rfl fits supplied
  refine ⟨_, runSteps_of_step hhost hrun fits supplied hcmd, ?_⟩
  have named : ∀ k < (passRecords s.params.sd req.asgin (req.prog.take (plenPort s.params req)) 0 []).length, _ :=
    fun k hk => recordTp_passRecords hk
  simp only [Nat.zero_add] at named
  have prog_length := List.length_take_of_le supplied
  cases hvalue : passValue s.params.sd req.asgin (req.prog.take (plenPort s.params req)) with
  | ok b =>
    have all := (length_passRecords_of_value hvalue).trans prog_length
    rw [stepEnd_ok_etrace]
    refine ⟨by simp [all], List.getLast?_concat, fun k hk => ?_⟩
    rw [List.getElem?_append_left (by omega)]
    exact named k (by omega)
  | error f =>
    rw [stepEnd_error_etrace]
    refine ⟨named, (length_passRecords_of_fault hvalue).trans ?_⟩
    rw [prog_length]
    cases f <;> rfl

end Sys2Proof.Machine
end

section
/-! SUPPORT. The truth table (46_postfix_machine.md R259 to R261): a row's pass records the program's value in its row and
begins the next row. From these O45 and O46. -/

namespace Sys2Proof.Machine

/-! ### The rows recorded -/

theorem getLsbD_recordRow {rows : Vec} {row : Nat} (hrow : row < rows.width) (b : Bool) (i : Nat) :
    (recordRow rows row b).bits.getLsbD i = if i = row then b else rows.bits.getLsbD i := by
  rw [recordRow, getLsbD_tabulate]
  split_ifs with same
  · subst same
    rw [decide_eq_true hrow, Bool.true_and]
  · by_cases in_range : i < rows.width
    · rw [decide_eq_true in_range, Bool.true_and]
    · rw [decide_eq_false in_range, Bool.false_and, BitVec.getLsbD_of_ge _ _ (Nat.not_lt.mp in_range)]

/-- The results `v row`, `v (row + 1)`, ... of `m` rows are recorded. -/
def recordRows (v : Nat → Bool) (rows : Vec) (row : Nat) : (m : Nat) → Vec
  | 0     => rows
  | m + 1 => recordRows v (recordRow rows row (v row)) (row + 1) m

@[simp] theorem recordRows_width (v : Nat → Bool) (rows : Vec) (row m : Nat) :
    (recordRows v rows row m).width = rows.width := by
  induction m generalizing rows row with
  | zero => rfl
  | succ m ih => exact ih _ _

theorem getLsbD_recordRows (v : Nat → Bool) {rows : Vec} {row m : Nat} (h : row + m ≤ rows.width) (i : Nat) :
    (recordRows v rows row m).bits.getLsbD i = if row ≤ i ∧ i < row + m then v i else rows.bits.getLsbD i := by
  induction m generalizing rows row with
  | zero => rw [recordRows, if_neg (by omega)]
  | succ m ih =>
    have fits : row + 1 + m ≤ (recordRow rows row (v row)).width := by
      show row + 1 + m ≤ rows.width
      omega
    rw [recordRows, ih fits, getLsbD_recordRow (by omega)]
    by_cases same : i = row
    · subst same
      rw [if_neg (by omega), if_pos rfl, if_pos (by omega)]
    · rw [if_neg same]
      exact if_congr (by omega) rfl rfl

/-! ### The passes of a table -/

/-- One row's pass: L + 1 steps. -/
theorem runSteps_row {s : State} {n row : Nat} {rows : Vec} {tm : List Token} {b : Bool} (hhost : s.host = [])
    (hrun : s.run = some (freshRun (.table n row rows) tm (rowAssignment n row)))
    (hvalue : passValue s.params.sd (rowAssignment n row) tm = .ok b) : runSteps (tm.length + 1) s =
      .next (finishRow (freshRun (.table n row rows) tm (rowAssignment n row)) n row rows b s) := by
  rw [runSteps_freshRun hhost hrun, hvalue, recorded_of_ne_step (by simp)]
  rfl

theorem finishRow_of_last {n row : Nat} (last : row + 1 = 2 ^ n) (r : Run) (rows : Vec) (b : Bool) (s : State) :
    finishRow r n row rows b s = completeTable (recordRow rows row b) s := if_neg (by omega)

theorem finishRow_of_more {n row : Nat} (more : row + 1 < 2 ^ n) (r : Run) (rows : Vec) (b : Bool) (s : State) :
    finishRow r n row rows b s = { s with
      run := some (freshRun (.table n (row + 1) (recordRow rows row b)) r.tm (rowAssignment n (row + 1))) } := if_pos more

/-- The rows from `row` on, `m + 1` of them. -/
theorem runSteps_rows {n : Nat} {tm : List Token} {v : Nat → Bool} {s : State} {row m : Nat} {rows : Vec}
    (hrows : row + (m + 1) = 2 ^ n) (hhost : s.host = [])
    (hrun : s.run = some (freshRun (.table n row rows) tm (rowAssignment n row)))
    (hvalue : ∀ row, passValue s.params.sd (rowAssignment n row) tm = .ok (v row)) :
    runSteps ((m + 1) * (tm.length + 1)) s = .next (completeTable (recordRows v rows row (m + 1)) s) := by
  induction m generalizing s row rows with
  | zero =>
    rw [Nat.zero_add, Nat.one_mul, runSteps_row hhost hrun (hvalue row), finishRow_of_last hrows]
    rfl
  | succ m ih =>
    have more : row + 1 < 2 ^ n := by omega
    have this_row := runSteps_row hhost hrun (hvalue row)
    rw [finishRow_of_more more] at this_row
    rw [Nat.succ_mul, Nat.add_comm, runSteps_add this_row]
    exact ih (row := row + 1) (by omega) hhost rfl hvalue

/-- The whole table: its start and 2^n passes. -/
theorem runSteps_table {n : Nat} {tm : List Token} {v : Nat → Bool} {s t : State} {rows : Vec} (hstep : step s = .next t)
    (hhost : t.host = []) (hrun : t.run = some (freshRun (.table n 0 rows) tm (rowAssignment n 0)))
    (hvalue : ∀ row, passValue t.params.sd (rowAssignment n row) tm = .ok (v row)) :
    runSteps (1 + 2 ^ n * (tm.length + 1)) s = .next (completeTable (recordRows v rows 0 (2 ^ n)) t) := by
  obtain ⟨m, hm⟩ : ∃ m, 2 ^ n = m + 1 := Nat.exists_eq_succ_of_ne_zero (Nat.two_pow_pos n).ne'
  rw [Nat.add_comm, runSteps_succ_of_step hstep, hm]
  exact runSteps_rows (by rw [Nat.zero_add, hm]) hhost hrun hvalue

/-- R261: a program that completes under one assignment completes under every other. -/
theorem passValue_ok_of_ok {sd : Nat} {asg : BitVec Config.NV} {prog : List Token} {b : Bool}
    (h : passValue sd asg prog = .ok b) (asg' : BitVec Config.NV) : ∃ b', passValue sd asg' prog = .ok b' := by
  cases hvalue : passValue sd asg' prog with
  | ok b' => exact ⟨b', rfl⟩
  | error f =>
    rw [passValue_error_of_error hvalue asg] at h
    cases h

/-- Settles O45: as row 0 completes every row does (R261). -/
theorem tableComputesEveryRow : Obligations.TableComputesEveryRow := by
  rintro s req _ hhost hrun hcmd some_var vars_fit rfl fits supplied ⟨b, row_zero⟩
  choose v hv using fun row => passValue_ok_of_ok row_zero (rowAssignment req.nvin.toNat row)
  have rows_fit : 0 + 2 ^ req.nvin.toNat ≤ (blankRows s.params).width := by
    rw [Nat.zero_add]
    exact Nat.pow_le_pow_right (by decide) vars_fit
  have run_table := runSteps_table (step_of_table hhost hrun fits supplied hcmd some_var vars_fit) rfl rfl hv
  rw [List.length_take_of_le supplied] at run_table
  have recorded_at := getLsbD_recordRows v rows_fit
  refine ⟨_, run_table, ?_, recordRows_width _ _ _ _, fun row hrow => ?_, fun row hrow => ?_⟩
  · simp only [completeTable, hrun]
  · rw [hv, completeTable_ttout, recorded_at, if_pos (by omega)]
  · rw [completeTable_ttout, recorded_at, if_neg (by omega)]
    exact BitVec.getLsbD_zero

/-! ### The faulting table -/

/-- Settles O46: the fault of row 0 ends the command. -/
theorem faultsDoNotDependOnValues : Obligations.FaultsDoNotDependOnValues := by
  refine ⟨fun sd prog asg asg' f fault => passValue_error_of_error fault asg', ?_⟩
  rintro s req _ f hhost hrun hcmd some_var vars_fit rfl fits supplied fault
  have pass := runSteps_of_start (step_of_table hhost hrun fits supplied hcmd some_var vars_fit) rfl rfl
  rw [List.length_take_of_le supplied, recorded_of_ne_step (by simp)] at pass
  rw [pass, fault]
  simp only [endPass, evRaise, hrun]

end Sys2Proof.Machine
end

section
/-! SUPPORT. The shunting-yard converter on grammatical expressions (45_expression_assembler.md R227 to R229): an operator
comes out after its operands, having waited on the stack for a weaker operator, a `)` or the end. -/

namespace Sys2Proof.Machine

/-! ### Converted form and binding strength -/

def binSymbol : BinOp → OpSym
  | .and => .and
  | .or  => .or
  | .xor => .xor

theorem binLexeme_eq (op : BinOp) : binLexeme op = .op (binSymbol op) := by cases op <;> rfl

/-- The expression with every operator after its operands, parentheses dropped; `infixToPostfix_lexemes` says that the
converter yields it. -/
def Formula.items : Formula → List PostfixItem
  | .name n     => [.name n]
  | .paren e    => e.items
  | .neg e      => e.items ++ [.op .not]
  | .bin op l r => l.items ++ r.items ++ [.op (binSymbol op)]

/-- The precedence of the expression's outermost operator; an atom binds more strongly than any operator (R228). -/
def Formula.level : Formula → Nat
  | .name _ | .paren _ => 4
  | .neg _             => prec .not
  | .bin op _ _        => prec (binSymbol op)

theorem one_le_level (e : Formula) : 1 ≤ e.level := by
  cases e with
  | name _ | paren _ | neg _ => simp [Formula.level, prec]
  | bin op _ _ => cases op <;> simp [Formula.level, binSymbol, prec]

theorem level_of_isTerm {e : Formula} (h : e.isTerm = true) : 2 ≤ e.level := by
  cases e with
  | name _ | paren _ | neg _ => simp [Formula.level, prec]
  | bin op _ _ =>
    cases op with
    | and => simp [Formula.level, binSymbol, prec]
    | or | xor => cases h

theorem level_of_isFactor {e : Formula} (h : e.isFactor = true) : 3 ≤ e.level := by
  cases e with
  | name _ | paren _ | neg _ => simp [Formula.level, prec]
  | bin _ _ _ => cases h

theorem level_of_isAtom {e : Formula} (h : e.isAtom = true) : 4 ≤ e.level := by
  cases e with
  | name _ | paren _ => exact le_rfl
  | neg _ | bin _ _ _ => cases h

theorem grammatical_neg {e : Formula} (h : (Formula.neg e).grammatical = true) :
    prec .not < e.level ∧ e.grammatical = true := by
  simp only [Formula.grammatical, Bool.and_eq_true] at h
  obtain ⟨atom, he⟩ := h
  exact ⟨level_of_isAtom atom, he⟩

/-- A binary operator's left operand binds at least as strongly as it, its right operand more strongly: left association
(R229). -/
theorem grammatical_bin {op : BinOp} {l r : Formula} (h : (Formula.bin op l r).grammatical = true) :
    prec (binSymbol op) ≤ l.level ∧ prec (binSymbol op) < r.level ∧ l.grammatical = true ∧ r.grammatical = true := by
  cases op with
  | and =>
    simp only [Formula.grammatical, Bool.and_eq_true] at h
    obtain ⟨⟨⟨l_term, r_factor⟩, hl⟩, hr⟩ := h
    exact ⟨level_of_isTerm l_term, level_of_isFactor r_factor, hl, hr⟩
  | or | xor =>
    simp only [Formula.grammatical, Bool.and_eq_true] at h
    obtain ⟨⟨r_term, hl⟩, hr⟩ := h
    exact ⟨one_le_level l, level_of_isTerm r_term, hl, hr⟩

/-! ### The operator stack -/

/-- An operator of precedence `p` pops nothing from this stack (R227). -/
def Stops (p : Nat) : List StackItem → Prop
  | .op o :: _ => prec o < p
  | _          => True

theorem Stops.mono {p q : Nat} {ops : List StackItem} (h : Stops p ops) (hpq : p ≤ q) : Stops q ops := by
  match ops with
  | [] | .lparen :: _ => trivial
  | .op _ :: _ => exact lt_of_lt_of_le h hpq

theorem popOperators_of_stops {p : Nat} {ops : List StackItem} (h : Stops p ops) (out : List PostfixItem) :
    popOperators p out ops = { out := out, ops := ops } := by
  match ops with
  | [] | .lparen :: _ => rfl
  | .op _ :: _ => exact if_neg (Nat.not_le.mpr h)

/-- What stands in the yard when an expression that converts to `items` has been read over `out` and `ops`: a part is in the
output, the rest is operators of precedence at least `p` that wait on the stack. -/
def YardHolds (items : List PostfixItem) (p : Nat) (out : List PostfixItem) (ops : List StackItem) (y : Yard) : Prop :=
  ∃ emitted pending, items = emitted ++ List.map PostfixItem.op pending ∧ (∀ o ∈ pending, p ≤ prec o) ∧
    y = { out := out ++ emitted, ops := List.map StackItem.op pending ++ ops }

theorem yardHolds_emitted (items : List PostfixItem) (p : Nat) (out : List PostfixItem) (ops : List StackItem) :
    YardHolds items p out ops { out := out ++ items, ops := ops } :=
  ⟨items, [], (List.append_nil _).symm, fun _ h => absurd h List.not_mem_nil, rfl⟩

theorem popOperators_pending {p : Nat} {pending : List OpSym} (hp : ∀ o ∈ pending, p ≤ prec o) {ops : List StackItem}
    (hops : Stops p ops) (out : List PostfixItem) : popOperators p out (List.map StackItem.op pending ++ ops) =
      { out := out ++ List.map PostfixItem.op pending, ops := ops } := by
  induction pending generalizing out with
  | nil => rw [List.map_nil, List.nil_append, popOperators_of_stops hops, List.map_nil, List.append_nil]
  | cons o rest ih =>
    obtain ⟨ho, hrest⟩ := List.forall_mem_cons.mp hp
    rw [List.map_cons, List.cons_append, popOperators, if_pos ho, ih hrest, List.map_cons, List.append_assoc]
    rfl

theorem closeParen_pending (pending : List OpSym) (ops : List StackItem) (out : List PostfixItem) :
    closeParen out (List.map StackItem.op pending ++ .lparen :: ops) =
      .ok { out := out ++ List.map PostfixItem.op pending, ops := ops } := by
  induction pending generalizing out with
  | nil => simp [closeParen]
  | cons o rest ih => simp [closeParen, ih]

theorem drain_pending (pending : List OpSym) (out : List PostfixItem) :
    drain out (List.map StackItem.op pending) = .ok (out ++ List.map PostfixItem.op pending) := by
  induction pending generalizing out with
  | nil => simp [drain]
  | cons o rest ih => simp [drain, ih]

section
variable {items : List PostfixItem} {p : Nat} {out : List PostfixItem} {ops : List StackItem} {y : Yard}

theorem YardHolds.popOperators_eq {q : Nat} (h : YardHolds items p out ops y) (hq : q ≤ p) (hops : Stops q ops) :
    popOperators q y.out y.ops = { out := out ++ items, ops := ops } := by
  obtain ⟨emitted, pending, rfl, hp, rfl⟩ := h
  rw [popOperators_pending (fun o ho => hq.trans (hp o ho)) hops, List.append_assoc]

theorem YardHolds.closeParen_eq (h : YardHolds items p out (.lparen :: ops) y) :
    closeParen y.out y.ops = .ok { out := out ++ items, ops := ops } := by
  obtain ⟨emitted, pending, rfl, -, rfl⟩ := h
  rw [closeParen_pending, List.append_assoc]

theorem YardHolds.drain_eq (h : YardHolds items p out [] y) : drain y.out y.ops = .ok (out ++ items) := by
  obtain ⟨emitted, pending, rfl, -, rfl⟩ := h
  rw [List.append_nil, drain_pending, List.append_assoc]

/-- Once its last operand has been read, the operator below it waits too. -/
theorem YardHolds.with_operator {left : List PostfixItem} {o : OpSym}
    (h : YardHolds items p (out ++ left) (.op o :: ops) y) (hp : prec o ≤ p) :
    YardHolds (left ++ items ++ [.op o]) (prec o) out ops y := by
  obtain ⟨emitted, pending, rfl, hpending, rfl⟩ := h
  refine ⟨left ++ emitted, pending ++ [o], by simp, ?_, by simp⟩
  simp only [List.forall_mem_append, List.forall_mem_singleton, le_refl, and_true]
  exact fun o' ho' => hp.trans (hpending o' ho')

end

/-! ### The converter -/

theorem shuntAll_cons_of_ok {y y' : Yard} {t : Lexeme} (h : shunt y t = .ok y') (rest : List Lexeme) :
    shuntAll y (t :: rest) = shuntAll y' rest := by
  simp only [shuntAll, h]

theorem shuntAll_append_of_ok {xs : List Lexeme} {y y' : Yard} (h : shuntAll y xs = .ok y') (ys : List Lexeme) :
    shuntAll y (xs ++ ys) = shuntAll y' ys := by
  induction xs generalizing y with
  | nil =>
    cases h
    rfl
  | cons t rest ih =>
    cases hstep : shunt y t with
    | ok y₁ =>
      rw [shuntAll_cons_of_ok hstep] at h
      rw [List.cons_append, shuntAll_cons_of_ok hstep, ih h]
    | error e =>
      simp only [shuntAll, hstep] at h
      cases h

/-- An operator over what it pops. -/
theorem shunt_op {y : Yard} {o : OpSym} {out : List PostfixItem} {ops : List StackItem}
    (h : popOperators (prec o) y.out y.ops = { out := out, ops := ops }) :
    shunt y (.op o) = .ok { out := out, ops := .op o :: ops } := by
  simp only [shunt, h]

/-- Where the expression's operators pop nothing from the stack below, its items are all that is added. -/
theorem shuntAll_lexemes {e : Formula} (he : e.grammatical = true) {out : List PostfixItem} {ops : List StackItem}
    (hops : Stops e.level ops) : ∃ y, shuntAll { out := out, ops := ops } e.lexemes = .ok y ∧
      YardHolds e.items e.level out ops y := by
  induction e generalizing out ops with
  | name n => exact ⟨_, rfl, yardHolds_emitted _ _ out ops⟩
  | paren e ih =>
    obtain ⟨y, inside, holds⟩ := ih he (out := out) (ops := .lparen :: ops) trivial
    refine ⟨_, ?_, yardHolds_emitted e.items _ out ops⟩
    rw [Formula.lexemes, List.cons_append, shuntAll_cons_of_ok rfl, shuntAll_append_of_ok inside,
      shuntAll_cons_of_ok (t := .rparen) holds.closeParen_eq]
    rfl
  | neg e ih =>
    obtain ⟨weaker, he⟩ := grammatical_neg he
    obtain ⟨y, operand, holds⟩ := ih he (out := out ++ []) (ops := .op .not :: ops) weaker
    refine ⟨y, ?_, holds.with_operator weaker.le⟩
    rw [List.append_nil] at operand
    rw [Formula.lexemes, shuntAll_cons_of_ok (shunt_op (y := ⟨out, ops⟩) (o := .not) (popOperators_of_stops hops out)),
      operand]
  | bin op l r ihl ihr =>
    obtain ⟨l_strong, r_stronger, hl, hr⟩ := grammatical_bin he
    obtain ⟨yl, left, left_holds⟩ := ihl hl (out := out) (hops.mono l_strong)
    obtain ⟨y, right, right_holds⟩ := ihr hr (out := out ++ l.items) (ops := .op (binSymbol op) :: ops) r_stronger
    refine ⟨y, ?_, right_holds.with_operator r_stronger.le⟩
    rw [Formula.lexemes, shuntAll_append_of_ok left, binLexeme_eq,
      shuntAll_cons_of_ok (shunt_op (left_holds.popOperators_eq l_strong hops)), right]

theorem infixToPostfix_lexemes {e : Formula} (he : e.grammatical = true) : infixToPostfix e.lexemes = .ok e.items := by
  obtain ⟨y, all, holds⟩ := shuntAll_lexemes he (out := []) (ops := []) trivial
  simp only [infixToPostfix, all]
  exact holds.drain_eq

end Sys2Proof.Machine
end

section
/-! SUPPORT. The program of an expression computes its value (46_postfix_machine.md R264): every VAR token reads its name's
bit, and the expression's items leave its value on the stack. From these O60. -/

namespace Sys2Proof.Machine

/-! ### The tokens of a program -/

theorem decodeToken_emitToken_name {names : List Name} (hlen : names.length ≤ Config.NV) {n : Name} (hn : n ∈ names) :
    decodeToken (emitToken names (.name n)) = .tokVar (BitVec.ofNat 5 (names.idxOf n)) := by
  have slot : names.idxOf n < 0x20 := (List.idxOf_lt_length_iff.mpr hn).trans_le hlen
  have token_toNat : (emitToken names (.name n)).toNat = names.idxOf n := by
    rw [emitToken, BitVec.toNat_ofNat, Nat.mod_eq_of_lt (by omega)]
  rw [decodeToken_of_lt (by omega), token_toNat]

theorem tokenEffect_operatorToken_not (sd : Nat) (r : Run) :
    tokenEffect sd (decodeToken (operatorToken .not)) r = notEffect r := rfl

theorem tokenEffect_operatorToken_bin (sd : Nat) (op : BinOp) (r : Run) :
    tokenEffect sd (decodeToken (operatorToken (binSymbol op))) r = binEffect op r := by
  cases op <;> rfl

/-- Every slot of an accepted assignment (R235). -/
theorem getLsbD_of_buildAsgin {names : List Name} (hlen : names.length ≤ Config.NV) {assignment : List (Name × Int)}
    {asg : BitVec Config.NV} (h : buildAsgin names assignment = .ok asg) (k : Nat) :
    asg.getLsbD k = (names[k]?.map (assignedBit assignment)).getD false := by
  by_cases all_bits : ∀ kv ∈ assignment, kv.2 = 0 ∨ kv.2 = 1
  · obtain ⟨asg', accepted, slots⟩ := buildAsgin_of_bits hlen all_bits
    rw [accepted] at h
    cases h
    exact slots k
  · push Not at all_bits
    rw [buildAsgin_of_bad_value names all_bits] at h
    cases h

/-- The slot that a name's token reads holds the name's bit. -/
theorem slotValue_of_buildAsgin {names : List Name} (hlen : names.length ≤ Config.NV) {assignment : List (Name × Int)}
    {asg : BitVec Config.NV} (h : buildAsgin names assignment = .ok asg) {n : Name} (hn : n ∈ names) :
    slotValue asg (BitVec.ofNat 5 (names.idxOf n)) = assignedBit assignment n := by
  have in_names := List.idxOf_lt_length_iff.mpr hn
  have slot : names.idxOf n < 2 ^ 5 := in_names.trans_le hlen
  rw [slotValue, BitVec.toNat_ofNat, Nat.mod_eq_of_lt slot, getLsbD_of_buildAsgin hlen h, List.getElem?_eq_getElem in_names,
    List.getElem_idxOf]
  rfl

/-! ### The value of an expression's items -/

/-- VAR tokens of these names read the bits `v` from ASGIN. -/
def ReadsNames (names : List Name) (asg : BitVec Config.NV) (v : Name → Bool) (items : List PostfixItem) : Prop :=
  ∀ n, .name n ∈ items → ∃ k, decodeToken (emitToken names (.name n)) = .tokVar k ∧ slotValue asg k = v n

theorem value_bin (v : Name → Bool) (op : BinOp) (l r : Formula) :
    (Formula.bin op l r).value v = binGate op (l.value v) (r.value v) := by
  cases op with
  | and | or => rfl
  | xor => exact (gateXor_eq _ _).symm

section
variable {sd : Nat} {names : List Name} {asg : BitVec Config.NV} {tp : Nat} {stk : List Bool}

/-- A one-token program. -/
theorem passStack_singleton {t : Token} {stk' : List Bool} {record : StepRecord}
    (h : tokenEffect sd (decodeToken t) (passRun asg tp stk) = .ok (stk', record)) :
    passStack sd asg [t] tp stk = .ok stk' := by
  rw [passStack_cons_of_ok h, passStack_nil]

/-- The tokens of an expression push its value; a stack with a free slot for each of them is deep enough. -/
theorem passStack_items {v : Name → Bool} {e : Formula} (reads : ReadsNames names asg v e.items)
    (room : stk.length + e.items.length ≤ sd) :
    passStack sd asg (e.items.map (emitToken names)) tp stk = .ok (e.value v :: stk) := by
  induction e generalizing tp stk with
  | name n =>
    obtain ⟨k, decodes, slot⟩ := reads n (List.mem_singleton_self _)
    have effect : tokenEffect sd (decodeToken (emitToken names (.name n))) (passRun asg tp stk) = _ :=
      (congrArg (tokenEffect sd · _) decodes).trans (varEffect_of_room room k)
    rw [Formula.value, ← slot]
    exact passStack_singleton effect
  | paren e ih => exact ih reads room
  | neg e ih =>
    simp only [Formula.items, List.length_append, List.length_singleton] at room
    have operand := ih (tp := tp) (stk := stk) (fun n hn => reads n (List.mem_append_left _ hn)) (by omega)
    rw [Formula.items, List.map_append, passStack_append operand]
    exact passStack_singleton ((tokenEffect_operatorToken_not sd _).trans (notEffect_of_cons rfl))
  | bin op l r ihl ihr =>
    simp only [Formula.items, List.length_append, List.length_singleton] at room
    have left := ihl (tp := tp) (stk := stk)
      (fun n hn => reads n (List.mem_append_left _ (List.mem_append_left _ hn))) (by omega)
    have right := ihr (tp := tp + (l.items.map (emitToken names)).length) (stk := l.value v :: stk)
      (fun n hn => reads n (List.mem_append_left _ (List.mem_append_right _ hn))) (by simp only [List.length_cons]; omega)
    rw [Formula.items, List.map_append, List.map_append, List.append_assoc, passStack_append left, passStack_append right,
      value_bin]
    exact passStack_singleton ((tokenEffect_operatorToken_bin sd op _).trans (binEffect_of_two op rfl))

end

/-- Settles O60. -/
theorem assembledProgramMeansItsExpression : Obligations.AssembledProgramMeansItsExpression := by
  intro p text e prog assignment asg hp htok he hasm hasg
  have emitted : emitProgram p e.items = .ok prog := by
    simpa only [assemble, htok, infixToPostfix_lexemes he] using hasm
  obtain ⟨names_fit, tokens_fit, rfl⟩ := emitProgram_eq_ok emitted
  have reads : ReadsNames (sortedNames e.items) asg (assignedBit assignment) e.items := fun n hn =>
    have named := mem_sortedNames.mpr hn
    ⟨_, decodeToken_emitToken_name names_fit named, slotValue_of_buildAsgin names_fit hasg named⟩
  have room : ([] : List Bool).length + e.items.length ≤ p.sd := by
    rw [List.length_nil, Nat.zero_add]
    exact tokens_fit.trans (lmax_le_sd_of_legal hp)
  rw [passValue_eq_passResult, passStack_items reads room]
  rfl

end Sys2Proof.Machine
end

section
/-! SUPPORT. The faults of both units (60_exceptions.md R290 to R292, R296): the instructions that raise without running a
path, and what a fault leaves; from this O25, O26 and O27. -/

namespace Sys2Proof

/-- A word that lacks its opcode or operand A is the invalid instruction with the two bits as it has them
(30_encoding.md R81). -/
theorem decodeWord_of_missing {n k : Nat} {w : BitVec k} (h : vopField n w = false ∨ vaField n w = false) :
    decodeWord n w = .aluInvalid (vopField n w) (vaField n w) :=
  if_neg (by simpa only [Bool.and_eq_true, not_and_or, Bool.not_eq_true] using h)

end Sys2Proof

namespace Sys2Proof.Machine

/-! ### The invalid word -/

theorem missingMask_bits : ∀ vop va : Bool,
    (missingMask vop va).getLsbD 0 = !vop ∧ (missingMask vop va).getLsbD 1 = !va := by decide

theorem exec_aluInvalid (vop va : Bool) (s : State) :
    exec (.aluInvalid vop va) s = .next (aluRaise (.invalidInstruction (missingMask vop va)) s) := rfl

/-- A presented word without VOP or VA takes the fault in the state in which its TE is held and its entry is gone. -/
theorem step_of_missing_field {s : State} {w : InstrWord} {te : Bool} {rest : List HostAction}
    (hs : s.host = .alu w te :: rest)
    (h : vopField s.params.n w.bits = false ∨ vaField s.params.n w.bits = false) :
    step s = .next (aluRaise (.invalidInstruction (missingMask (vopField s.params.n w.bits) (vaField s.params.n w.bits)))
      { s with te := te, host := rest }) := by
  rw [step_of_alu_word hs, issueAlu, decodeWord_of_missing h, exec_aluInvalid]

/-- Settles O25: the invalid instruction raises with `missingMask`, and a word without VOP or VA decodes to it. -/
theorem invalidWordsFault : Obligations.InvalidWordsFault := by
  refine ⟨fun s vop va _ => ?_, fun s w te rest hs missing => ?_⟩
  · obtain ⟨bit0, bit1⟩ := missingMask_bits vop va
    exact ⟨_, exec_aluInvalid vop va s, bit0, bit1, rfl⟩
  · obtain ⟨bit0, bit1⟩ := missingMask_bits (vopField s.params.n w.bits) (vaField s.params.n w.bits)
    exact ⟨_, step_of_missing_field hs missing, bit0, bit1⟩

/-! ### The missing operand B -/

/-- Settles O26: each of the seven meanings hands its missing operand to `withOperandB`, which raises. -/
theorem missingOperandBFaults : Obligations.MissingOperandBFaults := by
  refine fun s a row hrow => ⟨?_, rfl, rfl⟩
  fin_cases hrow <;> rfl

/-! ### What a fault leaves -/

/-- Settles O27: an ALU instruction raises or commits and a token raises or is done; a commit leaves no fault, and a token
that is done leaves its command. -/
theorem faultsWriteOnlyTheFaultPort : Obligations.FaultsWriteOnlyTheFaultPort := by
  refine ⟨fun i s t hi h faulted => ?_, fun i s t r hi hrun h ended => ?_⟩
  · obtain ⟨f, raises⟩ | ⟨o, records, commits⟩ := exec_alu_cases hi s
    · cases raises.symm.trans h
      rfl
    · cases commits.symm.trans h
      exact absurd (aluCommit_fault o records s) faulted
  · obtain ⟨stk, record, done⟩ | ⟨f, raises⟩ := exec_token_cases hi hrun
    · cases done.symm.trans h
      cases ended
    · cases raises.symm.trans h
      exact ⟨rfl, nofun⟩

end Sys2Proof.Machine
end

section
/-! SUPPORT. The records of the arithmetic instructions (60_exceptions.md R305) are those of the loops in plain arithmetic;
from this O31, O32 and O33. -/

namespace Sys2Proof.Machine

/-- The buffer after a traced instruction holds exactly its records (10_state.md R38). -/
theorem aluCommit_trace_of_te {n : Nat} (o : PathOut n) (records : List AluRecord) {s : State} (hte : s.te = true) :
    (aluCommit o records s).trace = records := by
  rw [aluCommit_trace, if_pos hte]

/-! ### ADD and SUB -/

/-- The sum bit of stage `i` is bit `i` of the sum. -/
theorem fullAdder_sum_eq_add {m : Nat} (a b : BitVec m) {i : Nat} (hi : i < m) :
    (fullAdder (a.getLsbD i) (b.getLsbD i) (rippleAdd a b i).2).1 = (a + b).getLsbD i := by
  rw [fullAdder_eq, rippleAdd_carry, carryInto_eq_carry, BitVec.getLsbD_add hi, Bool.xor_assoc]

/-- The carry out of stage `i` is the carry into stage `i + 1`. -/
theorem fullAdder_carry_eq_carryInto {m : Nat} (a b : BitVec m) (i : Nat) :
    (fullAdder (a.getLsbD i) (b.getLsbD i) (rippleAdd a b i).2).2 = carryInto a b (i + 1) :=
  rippleAdd_carry a b (i + 1)

theorem addRecords_eq_addTraceLaw {m : Nat} (a b : BitVec m) : addRecords a b = addTraceLaw a b := by
  refine List.map_congr_left fun i hi => ?_
  rw [fullAdder_sum_eq_add a b (List.mem_range.mp hi), fullAdder_carry_eq_carryInto, rippleAdd_carry]

theorem subRecords_eq_addTraceLaw {m : Nat} (a b : BitVec m) :
    subRecords a b = addTraceLaw (~~~b) (BitVec.ofNat m 1) ++ addTraceLaw a (-b) := by
  rw [subRecords, addRecords_eq_addTraceLaw, addRecords_eq_addTraceLaw, complement_eq, oneVec_eq, engineNegate_eq]

/-- Settles O31. -/
theorem additionTraceHoldsEveryBit : Obligations.AdditionTraceHoldsEveryBit := by
  rintro s a b _ _ hte rfl rfl
  refine ⟨_, _, exec_aluAdd a b s, ?_, exec_aluSub a b s, ?_⟩
  · rw [aluCommit_trace_of_te _ _ hte, addRecords_eq_addTraceLaw]
  · rw [aluCommit_trace_of_te _ _ hte, subRecords_eq_addTraceLaw]

/-! ### MUL -/

/-- Settles O32: the multiplier's registers after `i + 1` iterations. -/
theorem multiplicationTraceHoldsPartialProducts : Obligations.MultiplicationTraceHoldsPartialProducts := by
  rintro s a b _ _ hte rfl rfl
  refine ⟨_, exec_aluMul a b s, ?_⟩
  rw [aluCommit_trace_of_te _ _ hte]
  refine List.map_congr_left fun i _ => ?_
  rw [multiplyLoop_acc, multiplyLoop_wa]

/-! ### DIV -/

section
variable {m n : Nat}

/-- The record of one iteration, from registers known as numbers. -/
theorem divRecord_eq (hm : n ≤ m) (b : BitVec n) (i : Nat) (r : DivRegs m n) : divRecord b i r =
    .divIteration i ⟨m, BitVec.ofNat m (divideRow m n b.toNat r.values).acc⟩
      ⟨n, BitVec.ofNat n (divideRow m n b.toNat r.values).q⟩ ⟨m, BitVec.ofNat m (divideRow m n b.toNat r.values).ap⟩
      (divideRow m n b.toNat r.values).commit := by
  obtain ⟨hacc, hq⟩ := Prod.mk.inj (divShift_values b.toNat r)
  rw [divRecord, sign_divTrial hm, gateNot_eq, Bool.not_not, ← hacc, ← hq, ← toNat_divTrial hm b r]
  simp only [BitVec.ofNat_toNat, BitVec.setWidth_eq]

theorem engineDivide_eq_divideRegs (hm : n ≤ m) (a : BitVec n) {b : BitVec n} (hb : b ≠ 0#n) : engineDivide m a b =
    { quotient := BitVec.ofNat n (divideRegs m n a.toNat b.toNat n).2
      remainder := BitVec.ofNat n (divideRegs m n a.toNat b.toNat n).1
      dz := false } := by
  obtain ⟨hacc, hq⟩ := Prod.mk.inj (divideLoop_values (width_pos_of_ne_zero hb) hm a b n)
  rw [engineDivide_of_ne_zero m a hb, ← hacc, ← hq, BitVec.ofNat_toNat, BitVec.ofNat_toNat, BitVec.setWidth_eq]

theorem divRecords_of_ne_zero (m : Nat) (a : BitVec n) {b : BitVec n} (hb : b ≠ 0#n) : divRecords m a b =
    (List.range n).map (fun i => divRecord b i (divideLoop m a b i)) ++
      [.divResult ⟨n, (engineDivide m a b).quotient⟩ ⟨n, (engineDivide m a b).remainder⟩] := if_neg hb

theorem divRecords_eq_divideTraceLaw (hm : n ≤ m) (a : BitVec n) {b : BitVec n} (hb : b ≠ 0#n) :
    divRecords m a b = divideTraceLaw m n a.toNat b.toNat := by
  rw [divRecords_of_ne_zero m a hb, engineDivide_eq_divideRegs hm a hb, divideTraceLaw]
  congr 1
  refine List.map_congr_left fun i _ => ?_
  rw [divRecord_eq hm, divideLoop_values (width_pos_of_ne_zero hb) hm]

end

/-- Settles O33: the records are the loop's, and inside the band the last one is that of `engineDivide_of_band`. -/
theorem divisionTraceHoldsTheRemainder : Obligations.DivisionTraceHoldsTheRemainder := by
  rintro s a b _ _ hte rfl rfl hb
  refine ⟨_, exec_aluDiv a b s, ?_, fun h => ?_⟩
  · rw [aluCommit_trace_of_te _ _ hte, divRecords_eq_divideTraceLaw (le_accWidth _ _) _ hb]
  · rw [aluCommit_trace_of_te _ _ hte, divRecords_of_ne_zero _ _ hb, List.getLast?_concat,
      engineDivide_of_band hb (le_accWidth _ _) (band_of_wide_or_le h)]

end Sys2Proof.Machine
end

section
/-! SUPPORT. The clusters of four of format_binary_string (60_exceptions.md R306), for any text without a space; from this
O53. -/

namespace Sys2Proof.Machine

/-! ### Clusters of four -/

theorem groupFour_of_length_le {text : List Char} (h : text.length ≤ 4) : groupFour text = text := by
  match text with
  | [] | [_] | [_, _] | [_, _, _] | [_, _, _, _] => rfl
  | _ :: _ :: _ :: _ :: _ :: _ =>
    simp only [List.length_cons] at h
    omega

theorem groupFour_of_more {group rest : List Char} (hgroup : group.length = 4) (hrest : rest ≠ []) :
    groupFour (group ++ rest) = group ++ ' ' :: groupFour rest := by
  match group with
  | [_, _, _, _] => exact if_neg (by rwa [List.isEmpty_iff])

/-- A text is at most one cluster, or one cluster before a text that is not empty. -/
theorem groupFour_induction {motive : List Char → Prop} (short : ∀ text, text.length ≤ 4 → motive text)
    (more : ∀ group rest, group.length = 4 → rest ≠ [] → motive rest → motive (group ++ rest)) (text : List Char) :
    motive text :=
  if h : text.length ≤ 4 then short text h
  else List.take_append_drop 4 text ▸
    more _ _ (List.length_take_of_le (Nat.le_of_not_le h)) (mt List.drop_eq_nil_iff.mp h)
      (groupFour_induction short more (text.drop 4))
termination_by text.length
decreasing_by
  rw [List.length_drop]
  omega

/-- One space for every cluster but the last. -/
theorem length_groupFour (text : List Char) : (groupFour text).length = text.length + (text.length - 1) / 4 := by
  induction text using groupFour_induction with
  | short text h =>
    rw [groupFour_of_length_le h]
    omega
  | more group rest hgroup hrest ih =>
    have pos := List.length_pos_iff.mpr hrest
    rw [groupFour_of_more hgroup hrest, List.length_append, List.length_cons, ih, List.length_append, hgroup]
    omega

section
variable {text : List Char} (h : ' ' ∉ text)
include h

theorem filter_space_of_not_mem : text.filter (fun c => c != ' ') = text :=
  List.filter_eq_self.mpr fun _ hc => bne_iff_ne.mpr (ne_of_mem_of_not_mem hc h)

/-- Clustering adds spaces and nothing else. -/
theorem filter_space_groupFour : (groupFour text).filter (fun c => c != ' ') = text := by
  induction text using groupFour_induction with
  | short text hlen => rw [groupFour_of_length_le hlen, filter_space_of_not_mem h]
  | more group rest hgroup hrest ih =>
    rw [List.mem_append, not_or] at h
    obtain ⟨group_bits, rest_bits⟩ := h
    rw [groupFour_of_more hgroup hrest, List.filter_append, filter_space_of_not_mem group_bits,
      List.filter_cons_of_neg (by decide), ih rest_bits]

/-- The spaces stand after every fourth character. -/
theorem groupFour_getElem?_eq_space {i : Nat} (hi : i < (groupFour text).length) :
    (groupFour text)[i]? = some ' ' ↔ i % 5 = 4 := by
  induction text using groupFour_induction generalizing i with
  | short text hlen =>
    rw [groupFour_of_length_le hlen] at hi ⊢
    exact iff_of_false (fun space => h (List.mem_of_getElem? space)) (by omega)
  | more group rest hgroup hrest ih =>
    rw [List.mem_append, not_or] at h
    obtain ⟨group_bits, rest_bits⟩ := h
    rw [groupFour_of_more hgroup hrest] at hi ⊢
    obtain in_group | rfl | beyond := Nat.lt_trichotomy i 4
    · rw [List.getElem?_append_left (hgroup ▸ in_group)]
      exact iff_of_false (fun space => group_bits (List.mem_of_getElem? space)) (by omega)
    · rw [List.getElem?_append_right hgroup.le, hgroup]
      exact iff_of_true rfl rfl
    · obtain ⟨j, rfl⟩ : ∃ j, i = j + 5 := ⟨i - 5, by omega⟩
      rw [List.length_append, List.length_cons, hgroup] at hi
      rw [List.getElem?_append_right (by omega), hgroup, show j + 5 - 4 = j + 1 by omega, List.getElem?_cons_succ,
        ih rest_bits (by omega), Nat.add_mod_right]

end

/-! ### The bits as characters -/

theorem bitChar_ne_space (b : Bool) : bitChar b ≠ ' ' := by cases b <;> decide

section
variable {n : Nat} (v : BitVec n)

/-- The characters that are put into clusters. -/
def orderedBits (msbFirst : Bool) : List Char := if msbFirst then (bitChars v).reverse else bitChars v

theorem formatBinary_eq (msbFirst : Bool) : formatBinary v msbFirst = groupFour (orderedBits v msbFirst) := rfl

theorem length_orderedBits (msbFirst : Bool) : (orderedBits v msbFirst).length = n := by
  cases msbFirst <;> simp [orderedBits, bitChars]

theorem space_not_mem_orderedBits (msbFirst : Bool) : ' ' ∉ orderedBits v msbFirst := by
  have not_mem : ' ' ∉ bitChars v := fun h =>
    have ⟨_, _, space⟩ := List.mem_map.mp h
    bitChar_ne_space _ space
  cases msbFirst with
  | false => exact not_mem
  | true => exact mt List.mem_reverse.mp not_mem

end

/-- Settles O53: the text put into clusters is the bits in their order, and holds no space. -/
theorem formattedBinaryHoldsTheBits : Obligations.FormattedBinaryHoldsTheBits := by
  intro n v
  refine ⟨filter_space_groupFour (space_not_mem_orderedBits v false),
    filter_space_groupFour (space_not_mem_orderedBits v true), fun msbFirst => ⟨?_, fun i hi => ?_⟩⟩
  · rw [formatBinary_eq, length_groupFour, length_orderedBits]
  · exact groupFour_getElem?_eq_space (space_not_mem_orderedBits v msbFirst) hi

end Sys2Proof.Machine
end

section
/-! SUPPORT. The passes that an evaluator command still has to make, and that a legal command makes at most 2^TT_MAX_VARS of
them, of at most LMAX + 1 steps each (70_reset_and_hazards.md R328); from this O51. -/

namespace Sys2Proof.Machine

/-- The passes that follow the present one: a truth table makes one for each row (46_postfix_machine.md R259). -/
def passesAfter : PassKind → Nat
  | .eval | .step     => 0
  | .table nvar row _ => 2 ^ nvar - (row + 1)

theorem passesAfter_lt_of_legalRun {p : Params} {r : Run} (hr : legalRun p r) : passesAfter r.kind < 2 ^ p.ttMaxVars := by
  obtain ⟨-, -, -, kind⟩ := hr
  cases hkind : r.kind with
  | eval => exact Nat.two_pow_pos _
  | step => exact Nat.two_pow_pos _
  | table nvar row rows =>
    rw [hkind] at kind
    obtain ⟨-, vars_fit, row_lt, -⟩ := kind
    have rows_fit : 2 ^ nvar ≤ 2 ^ p.ttMaxVars := Nat.pow_le_pow_right (by decide) vars_fit
    rw [passesAfter]
    omega

/-- The end of a pass ends the command, or begins a pass of the same program and leaves one fewer to follow. -/
theorem endPass_ends_or_continues (r : Run) (result : Except EvFault Bool) (s : State) :
    (endPass r result s).run = none ∨
      ∃ r', (endPass r result s).run = some r' ∧ r'.tm = r.tm ∧ passesAfter r'.kind + 1 = passesAfter r.kind := by
  cases result with
  | error f => exact .inl (evRaise_run f s)
  | ok b =>
    rw [endPass, finishPass]
    split
    next => exact .inl (completeEval_run b s)
    next => exact .inl (completeEval_run b _)
    next nvar row rows hkind =>
      obtain more | last := Nat.lt_or_ge (row + 1) (2 ^ nvar)
      · rw [finishRow_of_more more, hkind]
        refine .inr ⟨_, rfl, rfl, ?_⟩
        simp only [freshRun, passesAfter]
        omega
      · rw [finishRow, if_neg (Nat.not_lt.mpr last)]
        exact .inl (completeTable_run _ s)

theorem endPass_keepsInstance (r : Run) (result : Except EvFault Bool) (s : State) :
    KeepsInstance s (endPass r result s) := by
  cases result with
  | error f => exact evRaise_keepsInstance s f
  | ok b => exact finishPass_keepsInstance r b s

/-- What is left of a pass takes a step for each token not yet executed and one for the finish. -/
theorem runSteps_endPass {s : State} {r : Run} (hhost : s.host = []) (hrun : s.run = some r) : ∃ k result u,
    k ≤ r.tm.length + 1 ∧ u.host = [] ∧ runSteps k s = .next (endPass r result u) :=
  ⟨_, _, recorded r.kind _ s, Nat.succ_le_succ (List.drop_sublist r.tp r.tm).length_le, hhost,
    runSteps_pass hhost hrun rfl⟩

/-- By the number of passes that follow: each takes at most L + 1 steps, and the one after which none follows ends the
command. -/
theorem runSteps_ends_within_passes {s : State} {r : Run} (hhost : s.host = []) (hrun : s.run = some r) :
    ∃ k t, k ≤ (passesAfter r.kind + 1) * (r.tm.length + 1) ∧ runSteps k s = .next t ∧ t.run = none := by
  induction hm : passesAfter r.kind using Nat.strong_induction_on generalizing s r with
  | h m ih =>
    obtain ⟨k, result, u, hk, host_empty, pass⟩ := runSteps_endPass hhost hrun
    obtain ended | ⟨r', hrun', same_program, fewer⟩ := endPass_ends_or_continues r result u
    · exact ⟨k, _, hk.trans (Nat.le_mul_of_pos_left _ (Nat.succ_pos m)), pass, ended⟩
    · obtain ⟨-, host_kept⟩ := endPass_keepsInstance r result u
      obtain ⟨k', t, hk', rest, ended⟩ := ih _ (by omega) (host_kept.trans host_empty) hrun' rfl
      rw [same_program, fewer, hm] at hk'
      refine ⟨k + k', t, ?_, (runSteps_add pass k').trans rest, ended⟩
      rw [Nat.succ_mul]
      omega

/-- Settles O51. -/
theorem everyCommandEnds : Obligations.EveryCommandEnds := by
  intro s r hrun hr hhost
  obtain ⟨k, t, hk, steps, ended⟩ := runSteps_ends_within_passes hhost hrun
  have passes_fit : passesAfter r.kind + 1 ≤ 2 ^ s.params.ttMaxVars := passesAfter_lt_of_legalRun hr
  obtain ⟨-, program_fits, -⟩ := hr
  exact ⟨k, t, hk.trans (Nat.mul_le_mul passes_fit (Nat.succ_le_succ program_fits)), steps, ended⟩

end Sys2Proof.Machine
end
